-- ==== Sys2Proof/Word.lean ====
section
/-! DEFINITION. The value types of the machine (10_state.md R20, 30_encoding.md R91): bytes, 16-bit words, and the
4-bit and 12-bit fields of an instruction word. -/

namespace Sys2Proof

/-- An 8-bit unsigned value: a register V[i], a byte of MEM, the immediate kk (R20, R93). -/
abbrev Byte := BitVec 8

/-- A 16-bit unsigned value: an instruction word, PC, I, a return address (R20, R26, R90). -/
abbrev Word := BitVec 16

/-- A 4-bit instruction field: a register index x or y, or the sprite height n (R91, R94). -/
abbrev Nibble := BitVec 4

/-- A register index, 0x0 to 0xF; every value names a register (R94). -/
abbrev Reg := Nibble

/-- A 12-bit instruction field nnn (R91). -/
abbrev Addr12 := BitVec 12

end Sys2Proof
end

