-- ==== Sys2Proof/Config.lean ====
section
/-! DEFINITION. What an implementation fixes (00_scope.md R8) and the free values of the model.  An opaque constant
has no body that a proof could see, so a claim about it holds for every value of it. -/

namespace Sys2Proof.Config

/-- MEM_SIZE: 4096 bytes, addresses 0x000 to 0xFFF (R8, R60). -/
def memSize : Nat := 4096

/-- PROGRAM_OFFSET = 0x200 (R8; decision D1; log 4). -/
def programOffset : Nat := 0x200

/-- MAX_PROGRAM = MEM_SIZE - PROGRAM_OFFSET = 3584 bytes (R8; decision D2; log 25). -/
def maxProgram : Nat := 3584

/-- The number of glyph bytes: 16 glyphs of 5 bytes at 0x000 to 0x04F (R8, R61). -/
def fontSize : Nat := 80

/-- TIMER_HZ = 60 (R8). -/
def timerHz : Nat := 60

/-- FREE VALUE (log 11): how far STACK_DEPTH exceeds the source's bound of 12. -/
opaque stackSlack : Nat

/-- STACK_DEPTH: an open parameter, an integer of at least 12 (R8, R26; decision D3; log 11). -/
def stackDepth : Nat := stackSlack + 12

/-- FREE VALUE (log 20): CLOCK_HZ less one. -/
opaque clockHzPred : Nat

/-- CLOCK_HZ (C): a positive integer (R8, R271; log 20).  Only the paced step of the reference schedule reads it. -/
def clockHz : Nat := clockHzPred + 1

/-- FREE VALUE (logs 6 and 7): `draw_byte()`, the byte the environment supplies at the n-th draw (R10; D10, D11);
the port `rand_in` of R266. -/
opaque drawByte : Nat → Byte

/-- FREE VALUE (log 8): whether the environment takes the pressed key k at the n-th draw when a higher key is
pressed too (R10; D15). -/
opaque takesKey : Nat → Nat → Bool

end Sys2Proof.Config
end

