-- ==== Sys2Proof/Syntax.lean ====
section
/-! DEFINITION. The instruction set: one constructor per row of spec/opcode_table.json (30_encoding.md R100).
Operand bounds are carried by the field widths, every value of which is legal (R94). -/

namespace Sys2Proof

/-- The 34 instructions of the canonical opcode table (R100), in the table's order. -/
inductive Instr where
  /-- `00E0` CLS (R210). -/
  | cls
  /-- `00EE` RET (R140). -/
  | ret
  /-- `1nnn` JP addr (R141). -/
  | jp (nnn : Addr12)
  /-- `2nnn` CALL addr (R142). -/
  | call (nnn : Addr12)
  /-- `3xkk` SE Vx, kk (R143). -/
  | seKk (x : Reg) (kk : Byte)
  /-- `4xkk` SNE Vx, kk (R144). -/
  | sneKk (x : Reg) (kk : Byte)
  /-- `5xy0` SE Vx, Vy (R145). -/
  | seXy (x y : Reg)
  /-- `6xkk` LD Vx, kk (R162). -/
  | ldKk (x : Reg) (kk : Byte)
  /-- `7xkk` ADD Vx, kk (R163). -/
  | addKk (x : Reg) (kk : Byte)
  /-- `8xy0` LD Vx, Vy (R164). -/
  | ldXy (x y : Reg)
  /-- `8xy1` OR Vx, Vy (R165). -/
  | orXy (x y : Reg)
  /-- `8xy2` AND Vx, Vy (R166). -/
  | andXy (x y : Reg)
  /-- `8xy3` XOR Vx, Vy (R167). -/
  | xorXy (x y : Reg)
  /-- `8xy4` ADD Vx, Vy (R168). -/
  | addXy (x y : Reg)
  /-- `8xy5` SUB Vx, Vy (R169). -/
  | subXy (x y : Reg)
  /-- `8xy6` SHR Vx; the field y is kept and never read (R95, R170). -/
  | shrX (x y : Reg)
  /-- `8xy7` SUBN Vx, Vy (R171). -/
  | subnXy (x y : Reg)
  /-- `8xyE` SHL Vx; the field y is kept and never read (R95, R172). -/
  | shlX (x y : Reg)
  /-- `9xy0` SNE Vx, Vy (R146). -/
  | sneXy (x y : Reg)
  /-- `Annn` LD I, addr (R190). -/
  | ldI (nnn : Addr12)
  /-- `Bnnn` JP V0, addr (R147). -/
  | jpV0 (nnn : Addr12)
  /-- `Cxkk` RND Vx, kk (R173). -/
  | rnd (x : Reg) (kk : Byte)
  /-- `Dxyn` DRW Vx, Vy, n (R211). -/
  | drw (x y : Reg) (n : Nibble)
  /-- `Ex9E` SKP Vx (R220). -/
  | skp (x : Reg)
  /-- `ExA1` SKNP Vx (R221). -/
  | sknp (x : Reg)
  /-- `Fx07` LD Vx, DT (R230). -/
  | ldXDt (x : Reg)
  /-- `Fx0A` LD Vx, K (R222). -/
  | ldXK (x : Reg)
  /-- `Fx15` LD DT, Vx (R231). -/
  | ldDtX (x : Reg)
  /-- `Fx18` LD ST, Vx (R232). -/
  | ldStX (x : Reg)
  /-- `Fx1E` ADD I, Vx (R191). -/
  | addIX (x : Reg)
  /-- `Fx29` LD F, Vx (R192). -/
  | ldF (x : Reg)
  /-- `Fx33` LD B, Vx (R194). -/
  | ldB (x : Reg)
  /-- `Fx55` LD [I], Vx (R195). -/
  | ldMemX (x : Reg)
  /-- `Fx65` LD Vx, [I] (R196). -/
  | ldXMem (x : Reg)
  deriving DecidableEq, Repr

end Sys2Proof
end

