-- ==== Sys2Proof/WellFormed.lean ====
section
/-! DEFINITION. The checks that the types do not carry.  An instruction needs none: every value of every field of
every constructor is legal (30_encoding.md R94), so each term of Instr is well formed.  What is checked here is what
a host supplies before reset (00_scope.md R8) and a row of an opcode table (30_encoding.md R100). -/

namespace Sys2Proof

/-- What the host supplies before reset: the glyph bytes FONT (R64) and the program image (R282). -/
structure Boot where
  /-- FONT, the glyph bytes; row j of glyph n is byte n*5 + j (R64). -/
  font : List Byte
  /-- The program image, of any length; an empty image is legal (R282). -/
  image : List Byte
  deriving DecidableEq, Repr

/-- FONT has exactly 80 bytes (R8, decision D6).  The image needs no check: a longer one is truncated (R282). -/
def Boot.wellFormed (b : Boot) : Bool := b.font.length == Config.fontSize

/-- One row of the opcode map: a word w is an instruction of the row when `w & mask = bits` (R100). -/
structure OpcodeRow where
  /-- The row's mnemonic in spec/opcode_table.json. -/
  mnemonic : String
  /-- The bits of the word that are fixed. -/
  mask : Word
  /-- The values of the fixed bits (the table's `match`). -/
  bits : Word
  deriving DecidableEq, Repr

/-- A word matches a row (R100). -/
def OpcodeRow.holds (r : OpcodeRow) (w : Word) : Bool := (w &&& r.mask) == r.bits

/-- A row can match some word: its fixed values lie inside its mask. -/
def OpcodeRow.wellFormed (r : OpcodeRow) : Bool := (r.bits &&& r.mask) == r.bits

/-- Two rows share no word: they disagree in a bit that both fix (R100, "mutually exclusive"). -/
def OpcodeRow.apart (r q : OpcodeRow) : Bool := (r.bits &&& (r.mask &&& q.mask)) != (q.bits &&& (r.mask &&& q.mask))

end Sys2Proof
end

