-- ==== Sys2Proof/Decode.lean ====
section
/-! DEFINITION. Decoding and encoding of instruction words (30_encoding.md).  `decode` is R101; `opcodeTable` is the
map of R100; `encode` writes the words of R92 and R100.  Memory is big-endian (20_memory.md R65). -/

namespace Sys2Proof

/-! The fields of an instruction word (R11, R91). -/

/-- opClass = w[15:12]. -/
def fieldOp (w : Word) : Nibble := w.extractLsb' 12 4
/-- x = n1 = w[11:8]. -/
def fieldX (w : Word) : Reg := w.extractLsb' 8 4
/-- y = n2 = w[7:4]. -/
def fieldY (w : Word) : Reg := w.extractLsb' 4 4
/-- n = n3 = w[3:0]. -/
def fieldN (w : Word) : Nibble := w.extractLsb' 0 4
/-- kk = w[7:0]. -/
def fieldKk (w : Word) : Byte := w.extractLsb' 0 8
/-- nnn = w[11:0]. -/
def fieldNnn (w : Word) : Addr12 := w.extractLsb' 0 12

/-- The word of two consecutive bytes: the high byte stands first (R65). -/
def wordOfBytes (hi lo : Byte) : Word := hi ++ lo

/-- The byte at PC (the high byte) of a word laid out in memory (R65). -/
def highByte (w : Word) : Byte := w.extractLsb' 8 8

/-- The byte at PC + 1 (the low byte) of a word laid out in memory (R65). -/
def lowByte (w : Word) : Byte := w.extractLsb' 0 8

/-- Words of opClass 0x0: only 00E0 and 00EE are defined (R101, R103). -/
def decode0 (w : Word) : Option Instr :=
  if w = 0x00E0#16 then some .cls else if w = 0x00EE#16 then some .ret else none

/-- Words of opClass 0x8, told apart by w[3:0] (R101). -/
def decode8 (x y : Reg) (n : Nibble) : Option Instr :=
  match n.toNat with
  | 0x0 => some (.ldXy x y)
  | 0x1 => some (.orXy x y)
  | 0x2 => some (.andXy x y)
  | 0x3 => some (.xorXy x y)
  | 0x4 => some (.addXy x y)
  | 0x5 => some (.subXy x y)
  | 0x6 => some (.shrX x y)
  | 0x7 => some (.subnXy x y)
  | 0xE => some (.shlX x y)
  | _ => none

/-- Words of opClass 0xE, told apart by w[7:0] (R101). -/
def decodeE (x : Reg) (kk : Byte) : Option Instr :=
  match kk.toNat with
  | 0x9E => some (.skp x)
  | 0xA1 => some (.sknp x)
  | _ => none

/-- Words of opClass 0xF, told apart by w[7:0] (R101). -/
def decodeF (x : Reg) (kk : Byte) : Option Instr :=
  match kk.toNat with
  | 0x07 => some (.ldXDt x)
  | 0x0A => some (.ldXK x)
  | 0x15 => some (.ldDtX x)
  | 0x18 => some (.ldStX x)
  | 0x1E => some (.addIX x)
  | 0x29 => some (.ldF x)
  | 0x33 => some (.ldB x)
  | 0x55 => some (.ldMemX x)
  | 0x65 => some (.ldXMem x)
  | _ => none

/-- The decode function of R101, total on every word; `none` is ILLEGAL (R103). -/
def decode (w : Word) : Option Instr :=
  match (fieldOp w).toNat with
  | 0x0 => decode0 w
  | 0x1 => some (.jp (fieldNnn w))
  | 0x2 => some (.call (fieldNnn w))
  | 0x3 => some (.seKk (fieldX w) (fieldKk w))
  | 0x4 => some (.sneKk (fieldX w) (fieldKk w))
  | 0x5 => if fieldN w = 0#4 then some (.seXy (fieldX w) (fieldY w)) else none
  | 0x6 => some (.ldKk (fieldX w) (fieldKk w))
  | 0x7 => some (.addKk (fieldX w) (fieldKk w))
  | 0x8 => decode8 (fieldX w) (fieldY w) (fieldN w)
  | 0x9 => if fieldN w = 0#4 then some (.sneXy (fieldX w) (fieldY w)) else none
  | 0xA => some (.ldI (fieldNnn w))
  | 0xB => some (.jpV0 (fieldNnn w))
  | 0xC => some (.rnd (fieldX w) (fieldKk w))
  | 0xD => some (.drw (fieldX w) (fieldY w) (fieldN w))
  | 0xE => decodeE (fieldX w) (fieldKk w)
  | _ => decodeF (fieldX w) (fieldKk w)

/-- Why bytes give no instruction. -/
inductive DecodeError where
  /-- The word matches no row of the opcode table: a fatal decode error (R103). -/
  | illegal (w : Word)
  /-- Fewer than two bytes are left; an instruction is always two (R90). -/
  | truncated
  deriving DecidableEq, Repr

/-- What bytes decode to: an instruction and the bytes after it, or a rejection by name. -/
inductive Decoded where
  | instr (i : Instr) (rest : List Byte)
  | rejected (e : DecodeError)
  deriving DecidableEq, Repr

/-- Decoding of bytes as memory holds them, total on any bytes (R65, R90, R101). -/
def decodeBytes : List Byte → Decoded
  | hi :: lo :: rest =>
    match decode (wordOfBytes hi lo) with
    | some i => .instr i rest
    | none => .rejected (.illegal (wordOfBytes hi lo))
  | _ => .rejected .truncated

/-- The instruction of a table word: w's low nbits bits as one word, laid out big-endian and given to the decoder. -/
def decodeTableWord (nbits w : Nat) : Option Instr :=
  match decodeBytes [highByte (BitVec.ofNat 16 (w % 2 ^ nbits)), lowByte (BitVec.ofNat 16 (w % 2 ^ nbits))] with
  | .instr i _ => some i
  | .rejected _ => none

/-! The encoder, from the formats of R92. -/

/-- Format NNN: `oooo aaaa aaaa aaaa`. -/
def fmtNNN (o : Nibble) (nnn : Addr12) : Word := o ++ nnn
/-- Formats XKK and XSS: `oooo xxxx kkkk kkkk`. -/
def fmtXKK (o : Nibble) (x : Reg) (kk : Byte) : Word := o ++ x ++ kk
/-- Formats XYS and XYN: `oooo xxxx yyyy nnnn`. -/
def fmtXYN (o : Nibble) (x y : Reg) (n : Nibble) : Word := o ++ x ++ y ++ n

/-- The word of an instruction (R92, R100). -/
def encode : Instr → Word
  | .cls => 0x00E0#16
  | .ret => 0x00EE#16
  | .jp nnn => fmtNNN 0x1#4 nnn
  | .call nnn => fmtNNN 0x2#4 nnn
  | .seKk x kk => fmtXKK 0x3#4 x kk
  | .sneKk x kk => fmtXKK 0x4#4 x kk
  | .seXy x y => fmtXYN 0x5#4 x y 0x0#4
  | .ldKk x kk => fmtXKK 0x6#4 x kk
  | .addKk x kk => fmtXKK 0x7#4 x kk
  | .ldXy x y => fmtXYN 0x8#4 x y 0x0#4
  | .orXy x y => fmtXYN 0x8#4 x y 0x1#4
  | .andXy x y => fmtXYN 0x8#4 x y 0x2#4
  | .xorXy x y => fmtXYN 0x8#4 x y 0x3#4
  | .addXy x y => fmtXYN 0x8#4 x y 0x4#4
  | .subXy x y => fmtXYN 0x8#4 x y 0x5#4
  | .shrX x y => fmtXYN 0x8#4 x y 0x6#4
  | .subnXy x y => fmtXYN 0x8#4 x y 0x7#4
  | .shlX x y => fmtXYN 0x8#4 x y 0xE#4
  | .sneXy x y => fmtXYN 0x9#4 x y 0x0#4
  | .ldI nnn => fmtNNN 0xA#4 nnn
  | .jpV0 nnn => fmtNNN 0xB#4 nnn
  | .rnd x kk => fmtXKK 0xC#4 x kk
  | .drw x y n => fmtXYN 0xD#4 x y n
  | .skp x => fmtXKK 0xE#4 x 0x9E#8
  | .sknp x => fmtXKK 0xE#4 x 0xA1#8
  | .ldXDt x => fmtXKK 0xF#4 x 0x07#8
  | .ldXK x => fmtXKK 0xF#4 x 0x0A#8
  | .ldDtX x => fmtXKK 0xF#4 x 0x15#8
  | .ldStX x => fmtXKK 0xF#4 x 0x18#8
  | .addIX x => fmtXKK 0xF#4 x 0x1E#8
  | .ldF x => fmtXKK 0xF#4 x 0x29#8
  | .ldB x => fmtXKK 0xF#4 x 0x33#8
  | .ldMemX x => fmtXKK 0xF#4 x 0x55#8
  | .ldXMem x => fmtXKK 0xF#4 x 0x65#8

/-- The bytes of an instruction as memory holds them, high byte first (R65). -/
def encodeBytes (i : Instr) : List Byte := [highByte (encode i), lowByte (encode i)]

/-- The row of the opcode map (R100) an instruction belongs to: its mask and its fixed bits, copied from the table
of 30_encoding.md and not computed from the encoder. -/
def rowOf : Instr → OpcodeRow
  | .cls => ⟨"CLS", 0xFFFF#16, 0x00E0#16⟩
  | .ret => ⟨"RET", 0xFFFF#16, 0x00EE#16⟩
  | .jp _ => ⟨"JP_addr", 0xF000#16, 0x1000#16⟩
  | .call _ => ⟨"CALL_addr", 0xF000#16, 0x2000#16⟩
  | .seKk _ _ => ⟨"SE_Vx__kk", 0xF000#16, 0x3000#16⟩
  | .sneKk _ _ => ⟨"SNE_Vx__kk", 0xF000#16, 0x4000#16⟩
  | .seXy _ _ => ⟨"SE_Vx__Vy", 0xF00F#16, 0x5000#16⟩
  | .ldKk _ _ => ⟨"LD_Vx__kk", 0xF000#16, 0x6000#16⟩
  | .addKk _ _ => ⟨"ADD_Vx__kk", 0xF000#16, 0x7000#16⟩
  | .ldXy _ _ => ⟨"LD_Vx__Vy", 0xF00F#16, 0x8000#16⟩
  | .orXy _ _ => ⟨"OR_Vx__Vy", 0xF00F#16, 0x8001#16⟩
  | .andXy _ _ => ⟨"AND_Vx__Vy", 0xF00F#16, 0x8002#16⟩
  | .xorXy _ _ => ⟨"XOR_Vx__Vy", 0xF00F#16, 0x8003#16⟩
  | .addXy _ _ => ⟨"ADD_Vx__Vy", 0xF00F#16, 0x8004#16⟩
  | .subXy _ _ => ⟨"SUB_Vx__Vy", 0xF00F#16, 0x8005#16⟩
  | .shrX _ _ => ⟨"SHR_Vx____Vy", 0xF00F#16, 0x8006#16⟩
  | .subnXy _ _ => ⟨"SUBN_Vx__Vy", 0xF00F#16, 0x8007#16⟩
  | .shlX _ _ => ⟨"SHL_Vx____Vy", 0xF00F#16, 0x800E#16⟩
  | .sneXy _ _ => ⟨"SNE_Vx__Vy", 0xF00F#16, 0x9000#16⟩
  | .ldI _ => ⟨"LD_I__addr", 0xF000#16, 0xA000#16⟩
  | .jpV0 _ => ⟨"JP_V0__addr", 0xF000#16, 0xB000#16⟩
  | .rnd _ _ => ⟨"RND_Vx__kk", 0xF000#16, 0xC000#16⟩
  | .drw _ _ _ => ⟨"DRW_Vx__Vy__n", 0xF000#16, 0xD000#16⟩
  | .skp _ => ⟨"SKP_Vx", 0xF0FF#16, 0xE09E#16⟩
  | .sknp _ => ⟨"SKNP_Vx", 0xF0FF#16, 0xE0A1#16⟩
  | .ldXDt _ => ⟨"LD_Vx__DT", 0xF0FF#16, 0xF007#16⟩
  | .ldXK _ => ⟨"LD_Vx__K", 0xF0FF#16, 0xF00A#16⟩
  | .ldDtX _ => ⟨"LD_DT__Vx", 0xF0FF#16, 0xF015#16⟩
  | .ldStX _ => ⟨"LD_ST__Vx", 0xF0FF#16, 0xF018#16⟩
  | .addIX _ => ⟨"ADD_I__Vx", 0xF0FF#16, 0xF01E#16⟩
  | .ldF _ => ⟨"LD_F__Vx", 0xF0FF#16, 0xF029#16⟩
  | .ldB _ => ⟨"LD_B__Vx", 0xF0FF#16, 0xF033#16⟩
  | .ldMemX _ => ⟨"LD__I___Vx", 0xF0FF#16, 0xF055#16⟩
  | .ldXMem _ => ⟨"LD_Vx___I", 0xF0FF#16, 0xF065#16⟩

/-- One instruction per row, in the table's order; which operands it has does not matter to `rowOf`. -/
def rowInstrs : List Instr :=
  [.cls, .ret, .jp 0, .call 0, .seKk 0 0, .sneKk 0 0, .seXy 0 0, .ldKk 0 0, .addKk 0 0, .ldXy 0 0, .orXy 0 0, .andXy 0 0]
  ++ [.xorXy 0 0, .addXy 0 0, .subXy 0 0, .shrX 0 0, .subnXy 0 0, .shlX 0 0, .sneXy 0 0, .ldI 0, .jpV0 0, .rnd 0 0]
  ++ [.drw 0 0 0, .skp 0, .sknp 0, .ldXDt 0, .ldXK 0, .ldDtX 0, .ldStX 0, .addIX 0, .ldF 0, .ldB 0, .ldMemX 0, .ldXMem 0]

/-- The 34 rows of R100. -/
def opcodeTable : List OpcodeRow := rowInstrs.map rowOf

end Sys2Proof
end

