-- ==== Sys2Proof/Machine/State.lean ====
section
/-! DEFINITION. The state of the block (10_state.md R20), the reasons it halts (60_exceptions.md R241), the port
events it takes between steps (R266), and the state after reset (70_reset_and_hazards.md R280). -/

namespace Sys2Proof.Machine

/-- The sixteen general registers V[0..15] (R21). -/
abbrev Regs := Vector Byte 16

/-- The keypad snapshot KEYS[0..15]; true means pressed (R29). -/
abbrev Keys := Vector Bool 16

/-- The framebuffer FB: 32 rows (row 0 on top) of 64 columns (column 0 on the left), one bit each (R30). -/
abbrev Frame := Vector (Vector Bool 64) 32

/-- MEM as a list of cells that differ from what an unlisted address reads as, addresses rising (see Ops.lean). -/
abbrev Mem := List Host.Cell

/-- Why the block is halted: the external quit, or a fault with its report, PC and one value (R32, R241, R253). -/
inductive HaltReason where
  /-- The external quit; not a fault (R253). -/
  | quit
  /-- The word at pc matches no defined opcode (R122). -/
  | decodeFault (pc w : Word)
  /-- CALL at pc with the stack full; reports the depth (R142). -/
  | stackOverflow (pc : Word) (depth : Nat)
  /-- RET at pc with the stack empty; reports the depth, 0 (R140). -/
  | stackUnderflow (pc : Word) (depth : Nat)
  /-- An access at pc to a byte address past the end of MEM; reports the first such address (R68, R121, R193). -/
  | addressFault (pc : Word) (addr : Nat)
  /-- SKP or SKNP at pc with V[x] naming no key; reports V[x] (R223). -/
  | keyIndexFault (pc : Word) (v : Byte)
  deriving DecidableEq, Repr

/-- RUN (R32). -/
inductive RunState where
  | running
  | halted (r : HaltReason)
  deriving DecidableEq, Repr

/-- An event at the block's input ports (R266), taken between instruction steps (R250, R251). -/
inductive Input where
  /-- keys_in: a keypad refresh that supplies the snapshot (R252). -/
  | keysIn (keys : Keys)
  /-- tick_in: one 60 Hz tick (R256). -/
  | tickIn
  /-- step_in: perform one instruction step (R120). -/
  | stepIn
  /-- quit_in: the external quit (R253). -/
  | quitIn
  /-- One pass of the reference scheduler's loop: an instruction step, its time accounting, and the tick when it is
  due (R261). -/
  | pacedIn
  deriving DecidableEq, Repr

/-- The state of the block (R20).  `draws` and `inputs` are the model's own fields (logs 9 and 10). -/
structure State where
  /-- V[0..15] (R21). -/
  v : Regs
  /-- The index register I (R25). -/
  i : Word
  /-- PC, the address of the instruction being executed (R23). -/
  pc : Word
  /-- STACK[0..]: entry j is the list's j-th element; an entry past its end still holds its reset value 0x0000 (R26; log 12). -/
  stack : List Word
  /-- SP, the number of return addresses on the stack (R27). -/
  sp : Nat
  /-- The delay timer DT (R28). -/
  dt : Byte
  /-- The sound timer ST (R28). -/
  st : Byte
  /-- KEYS (R29). -/
  keys : Keys
  /-- FB (R30). -/
  fb : Frame
  /-- DIRTY (R31). -/
  dirty : Bool
  /-- RUN (R32). -/
  run : RunState
  /-- ACC, the scheduler accumulator, in units of 1/(60*CLOCK_HZ) seconds (R20, R263; log 20). -/
  acc : Nat
  /-- MEM (R60). -/
  mem : Mem
  /-- The model's own: how many free values have been drawn (log 9). -/
  draws : Nat
  /-- The model's own: the port events still to come; when none is left every step is an instruction step (log 10). -/
  inputs : List Input
  deriving DecidableEq, Repr

/-- Why a step gives no next state. -/
inductive Fault where
  /-- Raised by `step` alone, from a state that is already Halted: the interpreter has no step (R127, R245).  Safe: the
  state stays as it was when the block halted. -/
  | halted (r : HaltReason)
  deriving DecidableEq, Repr

/-- Why an instruction has no meaning. -/
inductive Refusal where
  /-- Raised by `exec` for an instruction that has no meaning yet; no arm does so now.  Safe: the step stops. -/
  | notModelled (mnemonic : String)
  deriving DecidableEq, Repr

/-- The state right after reset, with the default FONT and an empty program image (R280, R282; logs 1 to 4). -/
def State.reset : State where
  v := Vector.replicate 16 0x00#8
  i := 0x0000#16
  pc := BitVec.ofNat 16 Config.programOffset
  stack := []
  sp := 0
  dt := 0x00#8
  st := 0x00#8
  keys := Vector.replicate 16 false
  fb := Vector.replicate 32 (Vector.replicate 64 false)
  dirty := false
  run := .running
  acc := 0
  mem := []
  draws := 0
  inputs := []

end Sys2Proof.Machine
end

