-- ==== Sys2Proof/Machine/Ops.lean ====
section
/-! DEFINITION. The named operations on memory, registers, the call stack and the framebuffer, raising a fault, the
PC updates, and the program load.  Every instruction is written over these. -/

namespace Sys2Proof.Machine

/-- The result of executing or stepping. -/
abbrev Result := Host.Outcome State Fault Refusal

/-! ## Memory (20_memory.md) -/

/-- FONT's default value, the table of R64, glyph after glyph (decision D6; log 1). -/
def defaultFont : List Byte :=
  [0xF0, 0x90, 0x90, 0x90, 0xF0, 0x20, 0x60, 0x20, 0x20, 0x70, 0xF0, 0x10, 0xF0, 0x80, 0xF0, 0xF0, 0x10, 0xF0, 0x10, 0xF0]
  ++ [0x90, 0x90, 0xF0, 0x10, 0x10, 0xF0, 0x80, 0xF0, 0x10, 0xF0, 0xF0, 0x80, 0xF0, 0x90, 0xF0, 0xF0, 0x10, 0x20, 0x40, 0x40]
  ++ [0xF0, 0x90, 0xF0, 0x90, 0xF0, 0xF0, 0x90, 0xF0, 0x10, 0xF0, 0xF0, 0x90, 0xF0, 0x90, 0x90, 0xE0, 0x90, 0xE0, 0x90, 0xE0]
  ++ [0xF0, 0x80, 0x80, 0x80, 0xF0, 0xE0, 0x90, 0x90, 0x90, 0xE0, 0xF0, 0x80, 0xF0, 0x80, 0xF0, 0xF0, 0x80, 0xF0, 0x80, 0x80]

/-- What an address that no cell lists reads as: the reset contents, FONT at 0x000 to 0x04F and 0x00 elsewhere (R63;
logs 1 and 2). -/
def unlisted (a : Nat) : Byte := defaultFont.getD a 0x00#8

/-- The byte at an address. -/
def Mem.read : Mem → Nat → Byte
  | [], a => unlisted a
  | (k, b) :: m, a => if k = a then b else Mem.read m a

/-- Forget every cell of an address. -/
def Mem.erase (a : Nat) (m : Mem) : Mem := m.filter (fun c => decide (c.1 ≠ a))

/-- List a cell before the first cell of a greater address. -/
def Mem.insert (a : Nat) (b : Byte) : Mem → Mem
  | [] => [(a, b)]
  | (k, c) :: m => if a < k then (a, b) :: (k, c) :: m else (k, c) :: Mem.insert a b m

/-- Write one byte, keeping the canonical form: a byte equal to what an unlisted address reads as is not listed. -/
def Mem.write (m : Mem) (a : Nat) (b : Byte) : Mem :=
  if b = unlisted a then Mem.erase a m else Mem.insert a b (Mem.erase a m)

/-- The canonical form: addresses strictly rising, each inside MEM, no cell equal to what an unlisted address reads as. -/
abbrev Mem.wf (m : Mem) : Prop :=
  (m.map Prod.fst).Pairwise (· < ·) ∧ ∀ c ∈ m, c.1 < Config.memSize ∧ c.2 ≠ unlisted c.1

/-- The n consecutive bytes from an address, lowest address first (R66). -/
def Mem.readBytes (m : Mem) (a n : Nat) : List Byte := (List.range n).map (fun j => Mem.read m (a + j))

/-- Write consecutive bytes from an address on, lowest address first (R67). -/
def Mem.writeBytes : Mem → Nat → List Byte → Mem
  | m, _, [] => m
  | m, a, b :: bs => Mem.writeBytes (Mem.write m a b) (a + 1) bs

/-- The bounds check of an access of n bytes at an address: AddressFault with the first address outside MEM (R68, R193;
decision D7; log 13).  An access of no bytes touches no address. -/
def boundsFault (pc : Word) (a n : Nat) : Option HaltReason :=
  if 0 < n ∧ Config.memSize < a + n then some (.addressFault pc (max a Config.memSize)) else none

/-- MemRead(addr, n) (R66): the bytes, or the fault. -/
def memRead (s : State) (a n : Nat) : Except HaltReason (List Byte) :=
  match boundsFault s.pc a n with
  | some r => .error r
  | none => .ok (Mem.readBytes s.mem a n)

/-- MemWrite(addr, n, v), v as its n bytes, most significant first (R67): all n addresses are checked before any byte
is written. -/
def memWrite (s : State) (a : Nat) (bs : List Byte) : Except HaltReason Mem :=
  match boundsFault s.pc a bs.length with
  | some r => .error r
  | none => .ok (Mem.writeBytes s.mem a bs)

/-! ## Registers (10_state.md) -/

/-- Every register index is below 16. -/
theorem reg_lt (x : Reg) : x.toNat < 16 := x.isLt

/-- V[x] (R21, R94). -/
def getReg (v : Regs) (x : Reg) : Byte := v[x.toNat]'(reg_lt x)

/-- V with register x holding b. -/
def setReg (v : Regs) (x : Reg) (b : Byte) : Regs := v.set x.toNat b (reg_lt x)

/-- V[x] of the state. -/
def State.reg (s : State) (x : Reg) : Byte := getReg s.v x

/-- V[x] <- b (R10). -/
def State.setV (s : State) (x : Reg) (b : Byte) : State := { s with v := setReg s.v x b }

/-- All of V at once. -/
def State.setRegs (s : State) (v : Regs) : State := { s with v := v }

/-- VF, the flag register (R22). -/
def regF : Reg := 0xF#4

/-- The registers V0 to Vx, in order (R195). -/
def regsUpTo (v : Regs) (x : Reg) : List Byte := v.toList.take (x.toNat + 1)

/-- Load bytes into consecutive registers from register j on (R196). -/
def loadRegs : Regs → Nat → List Byte → Regs
  | v, _, [] => v
  | v, j, b :: bs => loadRegs (v.setIfInBounds j b) (j + 1) bs

/-- I <- w (R25). -/
def State.setI (s : State) (w : Word) : State := { s with i := w }

/-- DT <- b (R28). -/
def State.setDt (s : State) (b : Byte) : State := { s with dt := b }

/-- ST <- b (R28). -/
def State.setSt (s : State) (b : Byte) : State := { s with st := b }

/-- MEM after a store. -/
def State.setMem (s : State) (m : Mem) : State := { s with mem := m }

/-- One free value has been drawn (log 9). -/
def State.drew (s : State) : State := { s with draws := s.draws + 1 }

/-! ## PC updates (40_cycle.md R124) -/

/-- PC <- t: a jump, call or return target; the last effect of the step. -/
def State.goto (s : State) (t : Word) : State := { s with pc := t }

/-- `seq`: PC + 2. -/
def State.seq (s : State) : State := s.goto (s.pc + 2#16)

/-- `skip`: PC + 4, past exactly one word (R148). -/
def State.skip (s : State) : State := s.goto (s.pc + 4#16)

/-- A skip instruction's update: `skip` when the condition holds, `seq` otherwise. -/
def State.skipIf (s : State) (c : Bool) : State := if c then s.skip else s.seq

/-! ## Faults (60_exceptions.md) -/

/-- RUN <- Halted(r). -/
def State.halt (s : State) (r : HaltReason) : State := { s with run := .halted r }

/-- `raise F(info)` (R242): the step's effects are discarded, the block halts with the report, PC stays at the faulting
instruction (R125, R243, R246; log 5).  There is no return from a fault (R245). -/
def raise (r : HaltReason) (s : State) : Result := .next (s.halt r)

/-! ## The call stack (10_state.md R26, R27) -/

/-- STACK[j]; an entry past the list's end holds 0x0000. -/
def stackGet (l : List Word) (j : Nat) : Word := l.getD j 0x0000#16

/-- STACK with entry j holding t. -/
def stackSet (l : List Word) (j : Nat) (t : Word) : List Word :=
  if j < l.length then l.set j t else l ++ List.replicate (j - l.length) 0x0000#16 ++ [t]

/-- A push: STACK[SP] <- t, then SP <- SP + 1. -/
def State.push (s : State) (t : Word) : State := { s with stack := stackSet s.stack s.sp t, sp := s.sp + 1 }

/-- The entry a pop reads: STACK[SP - 1]. -/
def State.top (s : State) : Word := stackGet s.stack (s.sp - 1)

/-- A pop's effect on SP. -/
def State.drop (s : State) : State := { s with sp := s.sp - 1 }

/-! ## The framebuffer (10_state.md R30) -/

/-- FB with every pixel off. -/
def blankFrame : Frame := Vector.replicate 32 (Vector.replicate 64 false)

/-- FB[r][c]. -/
def pixel (f : Frame) (r : Fin 32) (c : Fin 64) : Bool := f[r.val][c.val]

/-- FB with the pixel at (r, c) toggled. -/
def togglePixel (f : Frame) (r : Fin 32) (c : Fin 64) : Frame := f.set r.val (f[r.val].set c.val (!f[r.val][c.val]))

/-- FB after a clear or a draw, with DIRTY set (R31). -/
def State.setFrame (s : State) (f : Frame) : State := { s with fb := f, dirty := true }

/-- DIRTY <- false. -/
def State.clean (s : State) : State := { s with dirty := false }

/-! ## Environment fields -/

/-- KEYS <- k (R252). -/
def State.setKeys (s : State) (k : Keys) : State := { s with keys := k }

/-- ACC <- n (R261). -/
def State.setAcc (s : State) (n : Nat) : State := { s with acc := n }

/-- The port events still to come. -/
def State.setInputs (s : State) (l : List Input) : State := { s with inputs := l }

/-! ## Reset with a FONT and a program image (70_reset_and_hazards.md) -/

/-- Reset for a given FONT and program image (R280, R282, R284): FONT at 0x000, the image at PROGRAM_OFFSET cut at
MAX_PROGRAM bytes, everything else as in `State.reset`.  The port `load_in` (R266). -/
def State.boot (b : Boot) : State :=
  State.reset.setMem
    (Mem.writeBytes (Mem.writeBytes State.reset.mem 0 (b.font.take Config.fontSize)) Config.programOffset
      (b.image.take Config.maxProgram))

end Sys2Proof.Machine
end

