-- ==== Sys2Proof/Machine/Operands.lean ====
section
/-! DEFINITION. The operand forms (30_encoding.md R93, R94): immediates meeting wider registers, the addresses that
instructions compute, and the values they draw from registers. -/

namespace Sys2Proof.Machine

/-- `zext_16(nnn)`: a 12-bit immediate written to PC or I (R93). -/
def zextAddr (nnn : Addr12) : Word := nnn.setWidth 16

/-- `zext_16(b)`: a byte that meets a 16-bit value (R93). -/
def zextByte (b : Byte) : Word := b.setWidth 16

/-- The address in I as an integer; accesses add small offsets to it without wrap (R193). -/
def State.addrI (s : State) : Nat := s.i.toNat

/-- The target of Bnnn: V0 plus nnn, not masked to 12 bits (R147; decision D17; log 16). -/
def offsetTarget (v0 : Byte) (nnn : Addr12) : Word := zextByte v0 + zextAddr nnn

/-- I + V[x], modulo 2^16 (R191; decision D16; log 15). -/
def indexSum (i : Word) (b : Byte) : Word := i + zextByte b

/-- The address of the glyph V[x] names: the whole register times 5 (R192; conflict C2; log 28). -/
def glyphAddr (b : Byte) : Word := zextByte b * 5#16

/-- The three decimal digits of a byte, hundreds first (R194). -/
def bcdDigits (b : Byte) : List Byte :=
  [BitVec.ofNat 8 (b.toNat / 100), BitVec.ofNat 8 (b.toNat / 10 % 10), BitVec.ofNat 8 (b.toNat % 10)]

/-- The sprite bit drawn c columns right of the start: bit 7 is leftmost (R212; decision D12; log 17). -/
def spriteBit (b : Byte) (c : Nat) : Bool := b.getLsbD (7 - c)

/-- A row index, wrapped at the bottom edge (R213; decision D13; log 18). -/
def rowIndex (n : Nat) : Fin 32 := ⟨n % 32, Nat.mod_lt n (by decide)⟩

/-- A column index, wrapped at the right edge (R213). -/
def colIndex (n : Nat) : Fin 64 := ⟨n % 64, Nat.mod_lt n (by decide)⟩

/-- The keys that are pressed, in rising order: the set S of R222. -/
def pressedKeys (k : Keys) : List Nat := (List.range 16).filter (fun j => k[j]?.getD false)

/-- `draw_key(S)` (R10; decision D15; log 8): a member of the list that the environment chooses at the n-th draw, any
member being possible; 0 for the empty list, which no instruction asks about. -/
def drawKey (n : Nat) : List Nat → Nat
  | [] => 0
  | [k] => k
  | k :: j :: ks => if Config.takesKey n k then k else drawKey n (j :: ks)

end Sys2Proof.Machine
end

