-- ==== Sys2Proof/Machine/Flags.lean ====
section
/-! DEFINITION. The flags: what VF holds after the flag-writing instructions (42_alu.md R161, R168 to R172, 44_display.md
R214), and the one operation that writes a result and its flag. -/

namespace Sys2Proof.Machine

/-- A flag as VF holds it: 1 or 0. -/
def flagByte (c : Bool) : Byte := if c then 1#8 else 0#8

/-- The carry out of bit 7 of an addition: the integer sum exceeds 255 (R168). -/
def carryOut (a b : Byte) : Bool := decide (255 < a.toNat + b.toNat)

/-- "No borrow" of a - b: a is at least b, equality included (R169, R171; conflict C4). -/
def noBorrow (a b : Byte) : Bool := decide (b.toNat ≤ a.toNat)

/-- The bit a right shift by one drops: the old bit 0 (R170). -/
def lowBit (a : Byte) : Bool := a.getLsbD 0

/-- The bit a left shift by one drops: the old bit 7 (R172). -/
def highBit (a : Byte) : Bool := a.getLsbD 7

/-- Write a result and its flag (R161): for x other than 0xF, V[x] gets the result and VF the flag; for x = 0xF both
writes target VF, whose final value is unspecified, a free value (decision D10; log 7). -/
def State.setResult (s : State) (x : Reg) (r : Byte) (c : Bool) : State :=
  if x = regF then (s.setV regF (Config.drawByte s.draws)).drew else (s.setV x r).setV regF (flagByte c)

end Sys2Proof.Machine
end

