-- ==== Sys2Proof/Machine/Alu.lean ====
section
/-! DEFINITION. Register loads and arithmetic (42_alu.md).  Operands are read before anything is written (R160). -/

namespace Sys2Proof.Machine

/-- `6xkk` LD Vx, kk (R162). -/
def execLdKk (x : Reg) (kk : Byte) (s : State) : Result := .next (s.setV x kk).seq

/-- `7xkk` ADD Vx, kk: no flag (R163). -/
def execAddKk (x : Reg) (kk : Byte) (s : State) : Result := .next (s.setV x (s.reg x + kk)).seq

/-- `8xy0` LD Vx, Vy (R164). -/
def execLdXy (x y : Reg) (s : State) : Result := .next (s.setV x (s.reg y)).seq

/-- `8xy1` OR Vx, Vy: VF is not written (R165). -/
def execOrXy (x y : Reg) (s : State) : Result := .next (s.setV x (s.reg x ||| s.reg y)).seq

/-- `8xy2` AND Vx, Vy (R166). -/
def execAndXy (x y : Reg) (s : State) : Result := .next (s.setV x (s.reg x &&& s.reg y)).seq

/-- `8xy3` XOR Vx, Vy (R167). -/
def execXorXy (x y : Reg) (s : State) : Result := .next (s.setV x (s.reg x ^^^ s.reg y)).seq

/-- `8xy4` ADD Vx, Vy: VF is the carry (R168). -/
def execAddXy (x y : Reg) (s : State) : Result :=
  .next (s.setResult x (s.reg x + s.reg y) (carryOut (s.reg x) (s.reg y))).seq

/-- `8xy5` SUB Vx, Vy: VF is "no borrow" (R169). -/
def execSubXy (x y : Reg) (s : State) : Result :=
  .next (s.setResult x (s.reg x - s.reg y) (noBorrow (s.reg x) (s.reg y))).seq

/-- `8xy6` SHR Vx: VF is the old bit 0; V[y] plays no part (R95, R170). -/
def execShrX (x : Reg) (s : State) : Result := .next (s.setResult x (s.reg x >>> 1) (lowBit (s.reg x))).seq

/-- `8xy7` SUBN Vx, Vy: V[y] - V[x], VF is "no borrow" (R171). -/
def execSubnXy (x y : Reg) (s : State) : Result :=
  .next (s.setResult x (s.reg y - s.reg x) (noBorrow (s.reg y) (s.reg x))).seq

/-- `8xyE` SHL Vx: VF is the old bit 7; V[y] plays no part (R95, R172). -/
def execShlX (x : Reg) (s : State) : Result := .next (s.setResult x (s.reg x <<< 1) (highBit (s.reg x))).seq

/-- `Cxkk` RND Vx, kk: a byte the environment supplies, masked by kk (R173; decision D11; log 6). -/
def execRnd (x : Reg) (kk : Byte) (s : State) : Result := .next (s.setV x (Config.drawByte s.draws &&& kk)).drew.seq

end Sys2Proof.Machine
end

