-- ==== Sys2Proof/Machine/Control.lean ====
section
/-! DEFINITION. Control flow: return, jumps, call and skips (41_control_flow.md). -/

namespace Sys2Proof.Machine

/-- `00EE` RET: pop PC; StackUnderflowFault on an empty stack (R140). -/
def execRet (s : State) : Result :=
  if s.sp = 0 then raise (.stackUnderflow s.pc 0) s else .next (s.drop.goto s.top)

/-- `1nnn` JP addr (R141). -/
def execJp (nnn : Addr12) (s : State) : Result := .next (s.goto (zextAddr nnn))

/-- `2nnn` CALL addr: push PC + 2; StackOverflowFault on a stack that already holds STACK_DEPTH entries (R142; log 11). -/
def execCall (nnn : Addr12) (s : State) : Result :=
  if s.sp < Config.stackDepth then .next ((s.push (s.pc + 2#16)).goto (zextAddr nnn))
  else raise (.stackOverflow s.pc s.sp) s

/-- `3xkk` SE Vx, kk (R143). -/
def execSeKk (x : Reg) (kk : Byte) (s : State) : Result := .next (s.skipIf (decide (s.reg x = kk)))

/-- `4xkk` SNE Vx, kk (R144). -/
def execSneKk (x : Reg) (kk : Byte) (s : State) : Result := .next (s.skipIf (decide (s.reg x ≠ kk)))

/-- `5xy0` SE Vx, Vy (R145). -/
def execSeXy (x y : Reg) (s : State) : Result := .next (s.skipIf (decide (s.reg x = s.reg y)))

/-- `9xy0` SNE Vx, Vy (R146). -/
def execSneXy (x y : Reg) (s : State) : Result := .next (s.skipIf (decide (s.reg x ≠ s.reg y)))

/-- `Bnnn` JP V0, addr (R147). -/
def execJpV0 (nnn : Addr12) (s : State) : Result := .next (s.goto (offsetTarget (s.reg 0x0#4) nnn))

end Sys2Proof.Machine
end

