-- ==== Sys2Proof/Machine/Display.lean ====
section
/-! DEFINITION. Framebuffer clear and draw (44_display.md).  The loops are those of R211; a drawing in progress is the
framebuffer so far and whether a collision has been seen. -/

namespace Sys2Proof.Machine

/-- `00E0` CLS (R210). -/
def execCls (s : State) : Result := .next (s.setFrame blankFrame).seq

/-- One sprite bit onto the pixel (row, col): a 1 toggles it, and is a collision if it was on (R211, R214; conflict C1). -/
def drawBit (lit : Bool) (row : Fin 32) (col : Fin 64) (p : Frame × Bool) : Frame × Bool :=
  if lit then (togglePixel p.1 row col, p.2 || pixel p.1 row col) else p

/-- One sprite row of eight bits starting at column x0 of a screen row, wrapping at the right edge (R213). -/
def drawRow (x0 : Nat) (row : Fin 32) (b : Byte) (p : Frame × Bool) : Frame × Bool :=
  (List.range 8).foldl (fun q c => drawBit (spriteBit b c) row (colIndex (x0 + c)) q) p

/-- The sprite rows in order, the first at screen row y, wrapping at the bottom edge (R213). -/
def drawRows (x0 : Nat) : Nat → List Byte → Frame × Bool → Frame × Bool
  | _, [], p => p
  | y, b :: bs, p => drawRows x0 (y + 1) bs (drawRow x0 (rowIndex y) b p)

/-- `Dxyn` DRW Vx, Vy, n: the coordinates are read before VF is written (R211; decision D9; log 24). -/
def execDrw (x y : Reg) (n : Nibble) (s : State) : Result :=
  match memRead s s.addrI n.toNat with
  | .error r => raise r s
  | .ok bs =>
    let p := drawRows ((s.reg x).toNat % 64) ((s.reg y).toNat % 32) bs (s.fb, false)
    .next ((s.setFrame p.1).setV regF (flagByte p.2)).seq

end Sys2Proof.Machine
end

