-- ==== Sys2Proof/Machine/Index.lean ====
section
/-! DEFINITION. The index register and memory load-store (43_index_memory.md).  No access changes I. -/

namespace Sys2Proof.Machine

/-- `Annn` LD I, addr (R190). -/
def execLdI (nnn : Addr12) (s : State) : Result := .next (s.setI (zextAddr nnn)).seq

/-- `Fx1E` ADD I, Vx: no flag, no fault (R191). -/
def execAddIX (x : Reg) (s : State) : Result := .next (s.setI (indexSum s.i (s.reg x))).seq

/-- `Fx29` LD F, Vx (R192). -/
def execLdF (x : Reg) (s : State) : Result := .next (s.setI (glyphAddr (s.reg x))).seq

/-- Store bytes at I and go on, or raise the address fault before any byte is written (R193). -/
def storeAtI (bs : List Byte) (s : State) : Result :=
  match memWrite s s.addrI bs with
  | .error r => raise r s
  | .ok m => .next (s.setMem m).seq

/-- `Fx33` LD B, Vx: the three decimal digits at I, I+1, I+2 (R194). -/
def execLdB (x : Reg) (s : State) : Result := storeAtI (bcdDigits (s.reg x)) s

/-- `Fx55` LD [I], Vx: V0 to Vx at I to I+x (R195). -/
def execLdMemX (x : Reg) (s : State) : Result := storeAtI (regsUpTo s.v x) s

/-- `Fx65` LD Vx, [I]: V0 to Vx from I to I+x (R196). -/
def execLdXMem (x : Reg) (s : State) : Result :=
  match memRead s s.addrI (x.toNat + 1) with
  | .error r => raise r s
  | .ok bs => .next (s.setRegs (loadRegs s.v 0 bs)).seq

end Sys2Proof.Machine
end

