-- ==== Sys2Proof/Machine/Keypad.lean ====
section
/-! DEFINITION. Keypad poll (45_keypad.md). -/

namespace Sys2Proof.Machine

/-- Skip by the level of key V[x], or KeyIndexFault when V[x] names no key (R220, R221, R223; decision D14; log 14). -/
def skipByKey (x : Reg) (whenDown : Bool) (s : State) : Result :=
  if h : (s.reg x).toNat < 16 then .next (s.skipIf (s.keys[(s.reg x).toNat] == whenDown))
  else raise (.keyIndexFault s.pc (s.reg x)) s

/-- `Ex9E` SKP Vx (R220). -/
def execSkp (x : Reg) (s : State) : Result := skipByKey x true s

/-- `ExA1` SKNP Vx (R221). -/
def execSknp (x : Reg) (s : State) : Result := skipByKey x false s

/-- `Fx0A` LD Vx, K: with no key pressed PC is held and nothing is written, otherwise V[x] gets a pressed key (R222;
decisions D15, D29; log 8). -/
def execLdXK (x : Reg) (s : State) : Result :=
  match pressedKeys s.keys with
  | [] => .next s
  | k :: ks => .next (s.setV x (BitVec.ofNat 8 (drawKey s.draws (k :: ks)))).drew.seq

end Sys2Proof.Machine
end

