-- ==== Sys2Proof/Machine/Timers.lean ====
section
/-! DEFINITION. Timer access by instructions (46_timers.md); the tick is in Events.lean. -/

namespace Sys2Proof.Machine

/-- `Fx07` LD Vx, DT (R230). -/
def execLdXDt (x : Reg) (s : State) : Result := .next (s.setV x s.dt).seq

/-- `Fx15` LD DT, Vx (R231). -/
def execLdDtX (x : Reg) (s : State) : Result := .next (s.setDt (s.reg x)).seq

/-- `Fx18` LD ST, Vx (R232). -/
def execLdStX (x : Reg) (s : State) : Result := .next (s.setSt (s.reg x)).seq

end Sys2Proof.Machine
end

