-- ==== Sys2Proof/Machine/Dispatch.lean ====
section
/-! DEFINITION. The executor: one arm per constructor of Instr, each one call of its meaning (40_cycle.md R123). -/

namespace Sys2Proof.Machine

def exec (i : Instr) (s : State) : Host.Outcome State Fault Refusal :=
  match i with
  | .cls => Sys2Proof.Machine.execCls s
  | .ret => Sys2Proof.Machine.execRet s
  | .jp nnn => Sys2Proof.Machine.execJp nnn s
  | .call nnn => Sys2Proof.Machine.execCall nnn s
  | .seKk x kk => Sys2Proof.Machine.execSeKk x kk s
  | .sneKk x kk => Sys2Proof.Machine.execSneKk x kk s
  | .seXy x y => Sys2Proof.Machine.execSeXy x y s
  | .ldKk x kk => Sys2Proof.Machine.execLdKk x kk s
  | .addKk x kk => Sys2Proof.Machine.execAddKk x kk s
  | .ldXy x y => Sys2Proof.Machine.execLdXy x y s
  | .orXy x y => Sys2Proof.Machine.execOrXy x y s
  | .andXy x y => Sys2Proof.Machine.execAndXy x y s
  | .xorXy x y => Sys2Proof.Machine.execXorXy x y s
  | .addXy x y => Sys2Proof.Machine.execAddXy x y s
  | .subXy x y => Sys2Proof.Machine.execSubXy x y s
  | .shrX x _ => Sys2Proof.Machine.execShrX x s
  | .subnXy x y => Sys2Proof.Machine.execSubnXy x y s
  | .shlX x _ => Sys2Proof.Machine.execShlX x s
  | .sneXy x y => Sys2Proof.Machine.execSneXy x y s
  | .ldI nnn => Sys2Proof.Machine.execLdI nnn s
  | .jpV0 nnn => Sys2Proof.Machine.execJpV0 nnn s
  | .rnd x kk => Sys2Proof.Machine.execRnd x kk s
  | .drw x y n => Sys2Proof.Machine.execDrw x y n s
  | .skp x => Sys2Proof.Machine.execSkp x s
  | .sknp x => Sys2Proof.Machine.execSknp x s
  | .ldXDt x => Sys2Proof.Machine.execLdXDt x s
  | .ldXK x => Sys2Proof.Machine.execLdXK x s
  | .ldDtX x => Sys2Proof.Machine.execLdDtX x s
  | .ldStX x => Sys2Proof.Machine.execLdStX x s
  | .addIX x => Sys2Proof.Machine.execAddIX x s
  | .ldF x => Sys2Proof.Machine.execLdF x s
  | .ldB x => Sys2Proof.Machine.execLdB x s
  | .ldMemX x => Sys2Proof.Machine.execLdMemX x s
  | .ldXMem x => Sys2Proof.Machine.execLdXMem x s

end Sys2Proof.Machine
end

