-- ==== Sys2Proof/Machine/Events.lean ====
section
/-! DEFINITION. The environment events that act between steps (60_exceptions.md): the keypad refresh, the timer tick
with its display present, the external quit. -/

namespace Sys2Proof.Machine

/-- An event's effect, which a Halted block does not take (R127, R245). -/
def whenRunning (s t : State) : State :=
  match s.run with
  | .running => t
  | .halted _ => s

/-- The keypad refresh: KEYS <- K, any K (R252). -/
def refreshKeys (k : Keys) (s : State) : State := whenRunning s (s.setKeys k)

/-- The external quit: RUN <- Halted(Quit), nothing else (R253; decision D28). -/
def quit (s : State) : State := whenRunning s (s.halt .quit)

/-- One decrement of a timer, clamped at 0 (R256). -/
def timerDown (b : Byte) : Byte := if 0 < b.toNat then b - 1#8 else 0#8

/-- `present()` (R257): the state after it, and the read-only snapshot the Display Sink receives, if any. -/
def present (s : State) : State × Option Frame := if s.dirty then (s.clean, some s.fb) else (s, none)

/-- The timers' part of a tick (R256). -/
def countDown (s : State) : State := (s.setDt (timerDown s.dt)).setSt (timerDown s.st)

/-- `tick()`: both timers count down, then the framebuffer is presented if it is dirty (R256; decision D30). -/
def tick (s : State) : State := whenRunning s (present (countDown s)).1

/-- What the Display Sink receives at a tick taken in this state (R257, R267). -/
def tickFrame (s : State) : Option Frame :=
  match s.run with
  | .running => (present (countDown s)).2
  | .halted _ => none

end Sys2Proof.Machine
end

