-- ==== Sys2Proof/Machine/Cycle.lean ====
section
/-! DEFINITION. The fetch-decode-execute step (40_cycle.md), the reference scheduler's paced step (60_exceptions.md R261)
and the choice of what a running block does next. -/

namespace Sys2Proof.Machine

/-- Fetch: the word at PC and PC + 1, high byte first, or AddressFault (R121). -/
def fetch (s : State) : Except HaltReason Word :=
  match boundsFault s.pc s.pc.toNat 2 with
  | some r => .error r
  | none => .ok (wordOfBytes (Mem.read s.mem s.pc.toNat) (Mem.read s.mem (s.pc.toNat + 1)))

/-- One instruction step of a Running block (R128): fetch, decode, execute; the first fault found ends it (R244). -/
def instrStep (s : State) : Result :=
  match fetch s with
  | .error r => raise r s
  | .ok w =>
    match decode w with
    | none => raise (.decodeFault s.pc w) s
    | some i => exec i s

/-! ## The reference schedule (R260 to R263) -/

/-- A tick is due after this instruction at clock rate c: ACC + 1/c exceeds 1/60, in units of 1/(60*c) (R261, R263;
decision D21; log 20). -/
def tickDue (c acc : Nat) : Bool := decide (c < acc + Config.timerHz)

/-- The time accounting after one instruction at clock rate c, with the tick when it is due (R261); a block that has
just halted does none. -/
def account (c : Nat) (s : State) : State :=
  whenRunning s
    (if tickDue c s.acc then tick (s.setAcc (s.acc + Config.timerHz - c)) else s.setAcc (s.acc + Config.timerHz))

/-- One pass of the scheduler's loop: an instruction step and its accounting (R261). -/
def pacedStep (s : State) : Result :=
  match instrStep s with
  | .next t => .next (account Config.clockHz t)
  | .fault f => .fault f
  | .refused r => .refused r

/-- `cycles = floor(dt * C)`, the instructions of one round whose wall-clock interval is num/den seconds (R260; log 29). -/
def roundCycles (c num den : Nat) : Nat := num * c / den

/-- One round of the reference schedule as port events: one keypad refresh, then its batch of paced steps (R261, R262).
With no cycles it only refreshes the keypad (R260, R274). -/
def roundInputs (k : Keys) (num den : Nat) : List Input :=
  .keysIn k :: List.replicate (roundCycles Config.clockHz num den) .pacedIn

/-! ## What a running block does next -/

/-- One port event taken by a Running block (R250, R266). -/
def perform (e : Input) (s : State) : Result :=
  match e with
  | .keysIn k => .next (refreshKeys k s)
  | .tickIn => .next (tick s)
  | .stepIn => instrStep s
  | .quitIn => .next (quit s)
  | .pacedIn => pacedStep s

/-- The next port event, or an instruction step when none is left (R251; log 10). -/
def stepRunning (s : State) : Result :=
  match s.inputs with
  | [] => instrStep s
  | e :: rest => perform e (s.setInputs rest)

/-- The bytes of a table word written where the next instruction is fetched. -/
def placeWord (s : State) (nbits w : Nat) : State :=
  s.setMem (Mem.writeBytes s.mem s.pc.toNat
    [highByte (BitVec.ofNat 16 (w % 2 ^ nbits)), lowByte (BitVec.ofNat 16 (w % 2 ^ nbits))])

/-- A state whose next step is an instruction step: Running, with no port event before it. -/
def readyToFetch (s : State) : State := { s with run := .running, inputs := [] }

/-! ## Output ports (R266) -/

/-- The state in which the step taken from this state performs its tick, if it performs one: at once for tick_in, and
after the instruction of a paced step when the accounting makes the tick due (R256, R261). -/
def tickedFrom (s : State) : Option State :=
  match s.run, s.inputs with
  | .running, .tickIn :: rest => some (s.setInputs rest)
  | .running, .pacedIn :: rest =>
    match instrStep (s.setInputs rest) with
    | .next u => if u.run = .running ∧ tickDue Config.clockHz u.acc = true then some u else none
    | _ => none
  | _, _ => none

/-- Whether the step taken from this state performs a tick, by itself or inside a paced step (R256, R261, R265). -/
def stepTicks (s : State) : Bool := (tickedFrom s).isSome

/-- present_out and fb_out: the frame that the step taken from this state hands to the Display Sink, if any: that of its
tick (R257, R267; log 27). -/
def stepPresents (s : State) : Option Frame := (tickedFrom s).bind tickFrame

/-- st_out: the sound timer's countdown value (R268). -/
def stOut (s : State) : Byte := s.st

/-- The code of a halt reason (R241; decision D18; log 32). -/
def haltCode : HaltReason → Nat
  | .quit => 0
  | .decodeFault _ _ => 1
  | .stackOverflow _ _ => 2
  | .stackUnderflow _ _ => 3
  | .addressFault _ _ => 4
  | .keyIndexFault _ _ => 5

/-- The report of a fault: PC and one value (R241, R242); the quit reports nothing. -/
def haltReport : HaltReason → Option (Word × Nat)
  | .quit => none
  | .decodeFault pc w => some (pc, w.toNat)
  | .stackOverflow pc d => some (pc, d)
  | .stackUnderflow pc d => some (pc, d)
  | .addressFault pc a => some (pc, a)
  | .keyIndexFault pc v => some (pc, v.toNat)

/-- halt_out: nothing while the block runs, then the reason's code and its report (R242, R266). -/
def haltOut (s : State) : Option (Nat × Option (Word × Nat)) :=
  match s.run with
  | .running => none
  | .halted r => some (haltCode r, haltReport r)

end Sys2Proof.Machine
end

