-- ==== Sys2Proof/Machine/Step.lean ====
section
/-! DEFINITION. The step of the machine: a Halted block has none (40_cycle.md R127), a Running block does what
`stepRunning` says. -/

namespace Sys2Proof.Machine

/-- One step (R120, R127). -/
def step (s : State) : Host.Outcome State Fault Refusal :=
  match s.run with
  | .running => stepRunning s
  | .halted r => .fault (.halted r)

/-- s with an instruction stored at PC, Running, and no port event before it, so that the very next step fetches and
runs it (log 31). -/
def State.withFetchWord (s : State) (nbits w : Nat) : State := readyToFetch (placeWord s nbits w)

end Sys2Proof.Machine
end

