-- ==== Sys2Proof/Safety.lean ====
section
/-! DEFINITION. The terms that claims use: what an instruction leaves unchanged, the invariant of the block, how a run
ends (60_exceptions.md R270), and which schedules a claim may assume (R251, R265). -/

namespace Sys2Proof.Machine

/-! ## Frames -/

/-- Every register outside ds holds what it held. -/
def RegsSameBut (ds : List Reg) (s t : State) : Prop := ∀ j : Reg, j ∉ ds → t.reg j = s.reg j

/-- Every byte of memory reads as before. -/
def MemSame (s t : State) : Prop := ∀ a : Nat, Mem.read t.mem a = Mem.read s.mem a

/-- Every byte of memory outside the n bytes from a on reads as before. -/
def MemSameOutside (a n : Nat) (s t : State) : Prop :=
  ∀ b : Nat, b < a ∨ a + n ≤ b → Mem.read t.mem b = Mem.read s.mem b

/-- The call stack is as before. -/
def StackSame (s t : State) : Prop := t.stack = s.stack ∧ t.sp = s.sp

/-- Both timers are as before. -/
def TimersSame (s t : State) : Prop := t.dt = s.dt ∧ t.st = s.st

/-- The framebuffer and DIRTY are as before. -/
def ScreenSame (s t : State) : Prop := t.fb = s.fb ∧ t.dirty = s.dirty

/-- What no instruction that completes touches: KEYS, RUN, ACC and the port events still to come (R29, R126). -/
def EnvSame (s t : State) : Prop := t.keys = s.keys ∧ t.run = s.run ∧ t.acc = s.acc ∧ t.inputs = s.inputs

/-- The frame of an instruction that changes at most the registers ds and PC. -/
def RegFrame (ds : List Reg) (s t : State) : Prop :=
  RegsSameBut ds s t ∧ t.i = s.i ∧ StackSame s t ∧ TimersSame s t ∧ ScreenSame s t ∧ EnvSame s t ∧ MemSame s t

/-! ## The invariant -/

/-- The invariant of the block: memory is in canonical form; 0 <= SP <= STACK_DEPTH and no more entries are held (R27);
every return address is at most 0x1000 (R140, R142); PC is at most 0x10FE (R24). -/
def State.Inv (s : State) : Prop :=
  Mem.wf s.mem ∧ s.sp ≤ Config.stackDepth ∧ s.stack.length ≤ Config.stackDepth ∧
    (∀ w ∈ s.stack, w.toNat ≤ 0x1000) ∧ s.pc.toNat ≤ 0x10FE

/-! ## How a run ends (R270) -/

/-- The block is Running and the word at PC is a jump to itself: a run ends successfully at the first such state
(R270; decision D24). -/
def State.atSelfJump (s : State) : Prop :=
  s.run = .running ∧ ∃ w nnn, fetch s = .ok w ∧ decode w = some (.jp nnn) ∧ zextAddr nnn = s.pc

/-- The run has ended in a fault of R241. -/
def State.endedInFault (s : State) : Prop := ∃ r, s.run = .halted r ∧ r ≠ .quit

/-- The run has been stopped by the external quit; a claim says nothing of it (R270). -/
def State.stopped (s : State) : Prop := s.run = .halted .quit

/-- A safe state: no fault has been raised. -/
def State.safe (s : State) : Prop := ¬ s.endedInFault

/-! ## Schedules (R251, R265) -/

/-- n port events of a schedule, one step each; a schedule is any sequence of events (R251). -/
def runUnder (sched : Nat → Input) : Nat → State → Result
  | 0, s => .next s
  | n + 1, s =>
    match runUnder sched n s with
    | .next t => step (t.setInputs [sched n])
    | .fault f => .fault f
    | .refused r => .refused r

/-- The block is Running before every event of the run from s (R265, "while RUN = Running"). -/
def StaysRunning (sched : Nat → Input) (s : State) : Prop :=
  ∀ n, ∃ t, runUnder sched n s = .next t ∧ t.run = .running

/-- The host keeps running rounds: instruction steps recur, asked for by step_in or made by the scheduler (R265, R274;
log 30). -/
def RoundsRecur (sched : Nat → Input) : Prop := ∀ n, ∃ m, n ≤ m ∧ (sched m = .stepIn ∨ sched m = .pacedIn)

/-- Ticks occur infinitely often in the run from s, each by tick_in or inside a paced step. -/
def TicksRecur (sched : Nat → Input) (s : State) : Prop :=
  ∀ n, ∃ m t, n ≤ m ∧ runUnder sched m s = .next t ∧ stepTicks (t.setInputs [sched m]) = true

/-- Weak fairness of the tick (R265): while the block is Running and the host keeps running rounds, ticks occur
infinitely often.  A claim that a wait on DT ends states that it assumes this and RoundsRecur; no fairness is assumed of
the keypad. -/
def FairTicks (sched : Nat → Input) (s : State) : Prop := StaysRunning sched s → RoundsRecur sched → TicksRecur sched s

/-! ## What a draw lights (R211 to R214) -/

/-- Sprite bit c of sprite row j, at address I + j, is 1 and lands on the pixel (row, col), for the draw of V[x], V[y], n
(R211; bit 7 leftmost, wrapped at both edges). -/
def SpriteLights (s : State) (x y : Reg) (n : Nibble) (row : Fin 32) (col : Fin 64) : Prop :=
  ∃ j c : Nat, j < n.toNat ∧ c < 8 ∧ (Mem.read s.mem (s.i.toNat + j)).getLsbD (7 - c) = true ∧
    row.val = ((s.reg y).toNat % 32 + j) % 32 ∧ col.val = ((s.reg x).toNat % 64 + c) % 64

end Sys2Proof.Machine
end

