-- ==== Sys2Proof/Certificates/Slice0/Obligations.lean ====
section
/-! DEFINITION. The statements for the provers, from the spec's numbered rules.  Each docstring names the rules. -/

open Sys2Proof Sys2Proof.Machine

/-! ## Encoding and decoding (30_encoding.md) -/

/-- Words written out from the encodings of R100 decode to the instructions they stand for, one or more of each family, and
the neighbours that R103 calls illegal decode to none. -/
def Obligations.SpecWordsDecode : Prop :=
  decode 0x00E0#16 = some .cls ∧ decode 0x00EE#16 = some .ret ∧ decode 0x1234#16 = some (.jp 0x234#12) ∧
  decode 0x5120#16 = some (.seXy 1#4 2#4) ∧ decode 0x6A3E#16 = some (.ldKk 0xA#4 0x3E#8) ∧
  decode 0x812E#16 = some (.shlX 1#4 2#4) ∧ decode 0xA123#16 = some (.ldI 0x123#12) ∧
  decode 0xDAB5#16 = some (.drw 0xA#4 0xB#4 5#4) ∧ decode 0xE1A1#16 = some (.sknp 1#4) ∧
  decode 0xF10A#16 = some (.ldXK 1#4) ∧ decode 0xFF65#16 = some (.ldXMem 0xF#4) ∧
  decode 0x0123#16 = none ∧ decode 0x5121#16 = none ∧ decode 0x8128#16 = none ∧ decode 0xE19F#16 = none ∧ decode 0xF175#16 = none

/-- Decoding the bytes of an encoded instruction gives it back and leaves the bytes after it, for every instruction and
every operand (R90, R92, R100, R101). -/
def Obligations.DecodeOfEncodeIsIdentity : Prop :=
  ∀ (i : Instr) (rest : List Byte), decodeBytes (encodeBytes i ++ rest) = .instr i rest

/-- A legal word is the encoding of the instruction it decodes to: no bit of it is dropped, the ignored field y of 8xy6 and
8xyE included (R95, R100). -/
def Obligations.EncodeOfDecodeIsIdentity : Prop := ∀ (w : Word) (i : Instr), decode w = some i → encode i = w

/-- R100: there are 34 rows; a word decodes to the row it matches, the row where `w & mask = match`, and a word that matches
no row decodes to nothing; at most one row matches. -/
def Obligations.DecodeFollowsTheOpcodeTable : Prop :=
  opcodeTable.length = 34 ∧
  (∀ (w : Word), ∀ r ∈ opcodeTable, r.holds w = true → ∃ i, decode w = some i ∧ rowOf i = r) ∧
  (∀ (w : Word) (i : Instr), decode w = some i → rowOf i ∈ opcodeTable ∧ (rowOf i).holds w = true) ∧
  (∀ (w : Word), ∀ r ∈ opcodeTable, ∀ q ∈ opcodeTable, r.holds w = true → q.holds w = true → r = q)

/-- The illegal words are exactly those that R103 lists, and executing one raises DecodeFault with PC and the word, which halts
the machine: in the instruction step itself, whatever port events are waiting, and so in a step taken by step_in (a port of the
spec's decision D20) or with no port event waiting (the model's convention, log 10).  That a fault has no other effect is the
spec's decision D18.  A paced step is tied to the instruction step by PacedStepAccountsAfterTheInstruction. -/
def Obligations.IllegalWordsAreExactlyThese : Prop :=
  (∀ w : Word, decode w = none ↔
    (w.toNat ≤ 0x0FFF ∧ w ≠ 0x00E0#16 ∧ w ≠ 0x00EE#16) ∨
    ((w.toNat / 4096 = 0x5 ∨ w.toNat / 4096 = 0x9) ∧ w.toNat % 16 ≠ 0) ∨
    (w.toNat / 4096 = 0x8 ∧ w.toNat % 16 ∈ [0x8, 0x9, 0xA, 0xB, 0xC, 0xD, 0xF]) ∨
    (w.toNat / 4096 = 0xE ∧ w.toNat % 256 ∉ [0x9E, 0xA1]) ∨
    (w.toNat / 4096 = 0xF ∧ w.toNat % 256 ∉ [0x07, 0x0A, 0x15, 0x18, 0x1E, 0x29, 0x33, 0x55, 0x65])) ∧
  (∀ (s : State) (w : Word), s.pc.toNat + 1 < 0x1000 →
    w = wordOfBytes (Mem.read s.mem s.pc.toNat) (Mem.read s.mem (s.pc.toNat + 1)) → decode w = none →
    instrStep s = .next { s with run := .halted (.decodeFault s.pc w) } ∧
    (s.run = .running → s.inputs = [] → step s = .next { s with run := .halted (.decodeFault s.pc w) }) ∧
    (∀ rest, s.run = .running → s.inputs = .stepIn :: rest →
      step s = .next { s with run := .halted (.decodeFault s.pc w), inputs := rest }))

/-- Of the 65536 words, 43954 are legal (R105). -/
def Obligations.LegalWordCount : Prop :=
  ((List.range 65536).filter (fun k => (decode (BitVec.ofNat 16 k)).isSome)).length = 43954

/-! ## The step (40_cycle.md) -/

/-- When the two bytes at PC, high byte first, decode to an instruction, the instruction step is the execution of that
instruction, whatever port events are waiting.  So is the step of a Running block when the next event is step_in, which is
taken from the queue, and when no port event is waiting (the model's convention of log 10); a paced step executes it and then
does its accounting. -/
def Obligations.StepRunsTheDecodedInstruction : Prop :=
  ∀ (s : State) (i : Instr), s.pc.toNat + 1 < 0x1000 →
    decode (wordOfBytes (Mem.read s.mem s.pc.toNat) (Mem.read s.mem (s.pc.toNat + 1))) = some i →
    instrStep s = exec i s ∧
    (s.run = .running → s.inputs = [] → step s = exec i s) ∧
    (∀ rest, s.run = .running → s.inputs = .stepIn :: rest → step s = exec i { s with inputs := rest }) ∧
    (∀ rest, s.run = .running → s.inputs = .pacedIn :: rest →
      ∃ u, exec i { s with inputs := rest } = .next u ∧ step s = .next (account Config.clockHz u))

/-- A fetch that leaves memory halts the block with AddressFault(PC, addr), addr the first byte address outside: PC itself
when PC >= 0x1000, otherwise 0x1000 (R121).  This holds of the instruction step, whatever port events are waiting, and so of a
step taken by step_in or with no port event waiting (log 10); a paced step is tied to the instruction step by
PacedStepAccountsAfterTheInstruction.  It rests on the spec's own decision D7 (reject, not wrap; log 13). -/
def Obligations.FetchOutsideMemoryHalts : Prop :=
  ∀ (s : State) (r : HaltReason), 0x0FFF ≤ s.pc.toNat →
    r = .addressFault s.pc (if 0x1000 ≤ s.pc.toNat then s.pc.toNat else 0x1000) →
    instrStep s = .next { s with run := .halted r } ∧
    (s.run = .running → s.inputs = [] → step s = .next { s with run := .halted r }) ∧
    (∀ rest, s.run = .running → s.inputs = .stepIn :: rest → step s = .next { s with run := .halted r, inputs := rest })

/-- R127: a Halted block has no step, whatever port events are waiting; that the attempt is a fault of the step, under the
halt's own reason, is the model's form of "no step" (log 5). -/
def Obligations.HaltedBlockTakesNoStep : Prop :=
  ∀ (s : State) (r : HaltReason), s.run = .halted r → step s = .fault (.halted r)

/-- A step is never refused, and it gives a next state from every Running state (R120: a fault of the machine is a next
state that is Halted, log 5). -/
def Obligations.RunningBlockAlwaysSteps : Prop :=
  ∀ s : State, (s.run = .running → ∃ t, step s = .next t) ∧ (∀ r, step s ≠ .refused r)

/-- A step that raises a fault changes nothing but RUN (and takes the port event that caused it): PC still holds the address
of the faulting instruction.  The halt port, which shows nothing before, then shows the fault's code and its report: that PC,
and the raw word, the stack depth, the address or the value of V[x] (R241, R242).  R125 and the codes rest on the spec's
decision D18 (log 32). -/
def Obligations.FaultingStepChangesOnlyRun : Prop :=
  ∀ (s t : State) (r : HaltReason), step s = .next t → t.run = .halted r → r ≠ .quit →
    t = { s with run := .halted r, inputs := s.inputs.tail } ∧ haltOut s = none ∧
    ∃ code value, haltOut t = some (code, some (s.pc, value)) ∧
      match r with
      | .quit => False
      | .decodeFault _ w => code = 1 ∧ value = w.toNat
      | .stackOverflow _ depth => code = 2 ∧ value = depth
      | .stackUnderflow _ depth => code = 3 ∧ value = depth
      | .addressFault _ addr => code = 4 ∧ value = addr
      | .keyIndexFault _ v => code = 5 ∧ value = v.toNat

/-- Which instruction can raise which execution fault, each at most one kind (R244; the order is the spec's decision D19). -/
def Obligations.EachInstructionRaisesItsOwnFault : Prop :=
  ∀ (i : Instr) (s t : State) (r : HaltReason), s.run = .running → exec i s = .next t → t.run = .halted r →
    ((∃ a, i = .call a) ∧ r = .stackOverflow s.pc s.sp) ∨
    (i = .ret ∧ r = .stackUnderflow s.pc 0) ∨
    (((∃ x y n, i = .drw x y n) ∨ (∃ x, i = .ldB x) ∨ (∃ x, i = .ldMemX x) ∨ (∃ x, i = .ldXMem x)) ∧
      ∃ a, 0x1000 ≤ a ∧ r = .addressFault s.pc a) ∨
    (∃ x, (i = .skp x ∨ i = .sknp x) ∧ 0x0F < (s.reg x).toNat ∧ r = .keyIndexFault s.pc (s.reg x))

/-- R124: each instruction that completes picks one of the four PC updates, by the table of that rule; the sums are those of
integers whenever the fetch succeeded, so no update but a target exceeds 0x1002. -/
def Obligations.PcUpdateIsOneOfFour : Prop :=
  ∀ (i : Instr) (s t : State), s.run = .running → exec i s = .next t → t.run = .running →
    (s.pc.toNat ≤ 0x0FFE → (s.pc + 2#16).toNat = s.pc.toNat + 2 ∧ (s.pc + 4#16).toNat = s.pc.toNat + 4) ∧
    t.pc =
      match i with
      | .jp a => a.setWidth 16
      | .call a => a.setWidth 16
      | .jpV0 a => BitVec.ofNat 16 ((s.reg 0#4).toNat + a.toNat)
      | .ret => stackGet s.stack (s.sp - 1)
      | .seKk x kk => if s.reg x = kk then s.pc + 4#16 else s.pc + 2#16
      | .sneKk x kk => if s.reg x = kk then s.pc + 2#16 else s.pc + 4#16
      | .seXy x y => if s.reg x = s.reg y then s.pc + 4#16 else s.pc + 2#16
      | .sneXy x y => if s.reg x = s.reg y then s.pc + 2#16 else s.pc + 4#16
      | .skp x => if s.keys[(s.reg x).toNat]? = some true then s.pc + 4#16 else s.pc + 2#16
      | .sknp x => if s.keys[(s.reg x).toNat]? = some true then s.pc + 2#16 else s.pc + 4#16
      | .ldXK _ => if ∃ k : Fin 16, s.keys[k.val] = true then s.pc + 2#16 else s.pc
      | _ => s.pc + 2#16

/-- The writers of each piece of state are those that the table of R20 lists: no other instruction changes it.  (KEYS, RUN of a
completing instruction, ACC and the port events are written by none.) -/
def Obligations.OnlyTheListedInstructionsWrite : Prop :=
  ∀ (i : Instr) (s t : State), exec i s = .next t →
    (t.v ≠ s.v → match i with
      | .ldKk _ _ | .addKk _ _ | .ldXy _ _ | .orXy _ _ | .andXy _ _ | .xorXy _ _ | .addXy _ _ | .subXy _ _ | .shrX _ _
      | .subnXy _ _ | .shlX _ _ | .rnd _ _ | .drw _ _ _ | .ldXDt _ | .ldXK _ | .ldXMem _ => True
      | _ => False) ∧
    (t.i ≠ s.i → (∃ a, i = .ldI a) ∨ (∃ x, i = .addIX x) ∨ (∃ x, i = .ldF x)) ∧
    (t.stack ≠ s.stack → ∃ a, i = .call a) ∧
    (t.sp ≠ s.sp → i = .ret ∨ ∃ a, i = .call a) ∧
    (t.dt ≠ s.dt → ∃ x, i = .ldDtX x) ∧
    (t.st ≠ s.st → ∃ x, i = .ldStX x) ∧
    (t.fb ≠ s.fb ∨ t.dirty ≠ s.dirty → i = .cls ∨ ∃ x y n, i = .drw x y n) ∧
    (t.mem ≠ s.mem → (∃ x, i = .ldB x) ∨ ∃ x, i = .ldMemX x) ∧
    t.keys = s.keys ∧ t.acc = s.acc ∧ t.inputs = s.inputs

/-- No instruction reads ST, DIRTY or ACC (R28, R31, R34), and only SKP, SKNP and LD Vx, K read KEYS (R29): two states that
differ only there execute an instruction to states that differ only there. -/
def Obligations.InstructionsDoNotReadStDirtyAccKeys : Prop :=
  ∀ (i : Instr) (s : State),
    (∀ (b : Byte) (d : Bool) (a : Nat), ∃ t u, exec i s = .next t ∧ exec i { s with st := b, dirty := d, acc := a } = .next u ∧
      { t with st := 0#8, dirty := false, acc := 0 } = { u with st := 0#8, dirty := false, acc := 0 }) ∧
    (∀ k : Keys, (∀ x, i ≠ .skp x) → (∀ x, i ≠ .sknp x) → (∀ x, i ≠ .ldXK x) →
      ∃ t, exec i s = .next t ∧ exec i { s with keys := k } = .next { t with keys := k })

/-! ## Reset and the invariant (70_reset_and_hazards.md) -/

/-- What reset leaves: the values of R280.  The zero values rest on the spec's decision D5, PC on D1 and ACC on D21; no free
value drawn and no port event waiting are the model's own (logs 3, 4, 9, 10). -/
def Obligations.ResetLeavesTheStatedValues : Prop :=
  (∀ x : Reg, State.reset.reg x = 0#8) ∧ State.reset.i = 0#16 ∧ State.reset.pc = 0x0200#16 ∧ State.reset.sp = 0 ∧
  (∀ j, stackGet State.reset.stack j = 0#16) ∧ State.reset.dt = 0#8 ∧ State.reset.st = 0#8 ∧
  (∀ k : Fin 16, State.reset.keys[k.val] = false) ∧ (∀ r c, pixel State.reset.fb r c = false) ∧
  State.reset.dirty = false ∧ State.reset.run = .running ∧ State.reset.acc = 0 ∧ State.reset.draws = 0 ∧ State.reset.inputs = []

/-- R63: at reset with any FONT of 80 bytes and any program image, MEM holds FONT at 0x000 to 0x04F, the image at
PROGRAM_OFFSET onward, up to MAX_PROGRAM bytes, and 0x00 in every other byte; nothing but memory depends on them. -/
def Obligations.BootLoadsFontAndImage : Prop :=
  ∀ b : Boot, b.wellFormed = true →
    (∀ a < 0x1000, Mem.read (State.boot b).mem a =
      if a < 80 then b.font.getD a 0#8
      else if Config.programOffset ≤ a ∧ a < Config.programOffset + min b.image.length Config.maxProgram then
        b.image.getD (a - Config.programOffset) 0#8
      else 0#8) ∧
    State.boot b = { State.reset with mem := (State.boot b).mem }

/-- Reset satisfies the invariant, for every FONT and program image. -/
def Obligations.ResetSatisfiesTheInvariant : Prop := State.reset.Inv ∧ ∀ b : Boot, (State.boot b).Inv

/-- Every step keeps the invariant: memory stays in canonical form, 0 <= SP <= STACK_DEPTH (R27), no return address exceeds
0x1000 (R140, R142), and PC never exceeds 0x10FE (R24). -/
def Obligations.StepKeepsTheInvariant : Prop := ∀ s t : State, s.Inv → step s = .next t → t.Inv

/-! ## Environment events (60_exceptions.md) -/

/-- R252: the keypad refresh writes KEYS <- K for the K that the Input Adapter supplies, any K, and this is the only writer of
KEYS. -/
def Obligations.KeypadRefreshIsTheOnlyWriterOfKeys : Prop :=
  (∀ (s : State) (k : Keys) (rest : List Input), s.run = .running → s.inputs = .keysIn k :: rest →
    step s = .next { s with keys := k, inputs := rest }) ∧
  (∀ s t : State, step s = .next t → t.keys ≠ s.keys → ∃ k rest, s.inputs = .keysIn k :: rest ∧ t.keys = k)

/-- R256: a tick of a Running block decrements both timers, each clamped at 0, and presents the framebuffer if it is dirty;
nothing else changes. -/
def Obligations.TickCountsDownAndPresents : Prop :=
  ∀ (s : State) (rest : List Input), s.run = .running → s.inputs = .tickIn :: rest →
    ∃ t, step s = .next t ∧ t.dt.toNat = s.dt.toNat - 1 ∧ t.st.toNat = s.st.toNat - 1 ∧ t.dirty = false ∧
      stepPresents s = (if s.dirty then some s.fb else none) ∧
      t = { s with dt := t.dt, st := t.st, dirty := false, inputs := rest }

/-- n ticks bring each timer down by n, to 0 at the lowest: the timers decrease monotonically and are clamped at 0 (R28). -/
def Obligations.TicksCountDownToZero : Prop :=
  ∀ (n : Nat) (s : State), s.run = .running →
    (tick^[n] s).dt.toNat = s.dt.toNat - n ∧ (tick^[n] s).st.toNat = s.st.toNat - n ∧ (tick^[n] s).run = .running

/-- A frame is presented exactly at a tick taken with DIRTY set: at tick_in, or at the tick that the accounting makes due after
the instruction of a paced step that leaves the block Running; it is the framebuffer then, the block stays Running, and DIRTY is
clear after it (R257; that every such tick presents is the spec's decision D30, when the tick is due its decision D21). -/
def Obligations.PresentsOnlyAtATick : Prop :=
  ∀ (s : State) (f : Frame),
    (stepPresents s = some f ↔ s.run = .running ∧
      ((∃ rest, s.inputs = .tickIn :: rest ∧ s.dirty = true ∧ f = s.fb) ∨
       (∃ rest u, s.inputs = .pacedIn :: rest ∧ instrStep { s with inputs := rest } = .next u ∧ u.run = .running ∧
         Config.clockHz < u.acc + 60 ∧ u.dirty = true ∧ f = u.fb))) ∧
    (stepPresents s = some f → ∃ t, step s = .next t ∧ t.fb = f ∧ t.dirty = false ∧ t.run = .running)

/-- The external quit halts a Running block between steps and has no other effect; the halt port then shows code 0 and no
report (R253, R241; the spec's decisions D28 and D18). -/
def Obligations.QuitHaltsBetweenSteps : Prop :=
  ∀ (s : State) (rest : List Input), s.run = .running → s.inputs = .quitIn :: rest →
    ∃ t, step s = .next t ∧ t = { s with run := .halted .quit, inputs := rest } ∧ haltOut t = some (0, none)

/-- The reference scheduler's accounting is exact (R261, R263; the spec's decision D21): after n instructions that leave the
block Running, the instruction time added, 60 units each, is the remaining ACC plus c units for each tick that was taken, each
tick took 1 from DT, and at c >= 60 the accumulator never exceeds one period. -/
def Obligations.ReferenceAccountingIsExact : Prop :=
  ∀ (c n : Nat) (s : State), s.run = .running →
    ∃ ticks : Nat, ((account c)^[n] s).acc + c * ticks = s.acc + 60 * n ∧
      ((account c)^[n] s).dt.toNat = s.dt.toNat - ticks ∧
      (60 ≤ c → s.acc ≤ c → ((account c)^[n] s).acc ≤ c)

/-- A paced step is one instruction step followed, if the block is still Running, by the accounting and the tick when it is due
(R261; the spec's decision D21).  The tick hands the framebuffer to the Display Sink exactly if DIRTY is set (R257; decision D30),
and without a tick nothing is presented. -/
def Obligations.PacedStepAccountsAfterTheInstruction : Prop :=
  ∀ (s : State) (rest : List Input), s.run = .running → s.inputs = .pacedIn :: rest →
    ∃ u t, instrStep { s with inputs := rest } = .next u ∧ step s = .next t ∧
      (u.run ≠ .running → t = u ∧ stepPresents s = none) ∧
      (u.run = .running → u.acc + 60 ≤ Config.clockHz → t = { u with acc := u.acc + 60 } ∧ stepPresents s = none) ∧
      (u.run = .running → Config.clockHz < u.acc + 60 → t = tick { u with acc := u.acc + 60 - Config.clockHz } ∧
        stepPresents s = (if u.dirty then some u.fb else none))

/-! ## Control flow (41_control_flow.md) -/

/-- R140: RET pops PC from the stack; on an empty stack it raises StackUnderflowFault(PC, 0). -/
def Obligations.ReturnPopsPc : Prop :=
  ∀ s : State,
    (s.sp ≠ 0 → ∃ t, exec .ret s = .next t ∧ t.sp = s.sp - 1 ∧ t.pc = stackGet s.stack (s.sp - 1) ∧
      (∀ j, j < t.sp → stackGet t.stack j = stackGet s.stack j) ∧
      RegsSameBut [] s t ∧ t.i = s.i ∧ TimersSame s t ∧ ScreenSame s t ∧ EnvSame s t ∧ MemSame s t) ∧
    (s.sp = 0 → exec .ret s = .next { s with run := .halted (.stackUnderflow s.pc 0) })

/-- R141: JP sets PC to the zero-extended address and changes nothing else. -/
def Obligations.JumpLoadsPc : Prop :=
  ∀ (a : Addr12) (s : State), ∃ t, exec (.jp a) s = .next t ∧ t.pc.toNat = a.toNat ∧ RegFrame [] s t

/-- R142: CALL stores PC + 2 at STACK[SP], increments SP and jumps; with the stack full it raises StackOverflowFault(PC, SP).
(SP never exceeds STACK_DEPTH: StepKeepsTheInvariant.) -/
def Obligations.CallPushesTheReturnAddress : Prop :=
  ∀ (a : Addr12) (s : State),
    (s.sp < Config.stackDepth → ∃ t, exec (.call a) s = .next t ∧ t.pc.toNat = a.toNat ∧ t.sp = s.sp + 1 ∧
      stackGet t.stack s.sp = s.pc + 2#16 ∧ (∀ j, j < s.sp → stackGet t.stack j = stackGet s.stack j) ∧
      RegsSameBut [] s t ∧ t.i = s.i ∧ TimersSame s t ∧ ScreenSame s t ∧ EnvSame s t ∧ MemSame s t) ∧
    (s.sp = Config.stackDepth → exec (.call a) s = .next { s with run := .halted (.stackOverflow s.pc s.sp) })

/-- A return that finds the stack as the call left it restores PC to the word after the call and SP to its value before the call
(R142, L1.3 property 3). -/
def Obligations.CallThenReturnRoundTrip : Prop :=
  ∀ (a : Addr12) (s : State), s.sp < Config.stackDepth →
    ∃ t, exec (.call a) s = .next t ∧ ∀ u : State, u.stack = t.stack → u.sp = t.sp →
      ∃ w, exec .ret u = .next w ∧ w.pc = s.pc + 2#16 ∧ w.sp = s.sp

/-- R143, R144, R145, R146: the four register skips advance PC by exactly 4 when their condition holds and by exactly 2
otherwise, and change nothing else. -/
def Obligations.RegisterSkips : Prop :=
  ∀ (x y : Reg) (kk : Byte) (s : State),
    (∃ t, exec (.seKk x kk) s = .next t ∧ t.pc = (if s.reg x = kk then s.pc + 4#16 else s.pc + 2#16) ∧ RegFrame [] s t) ∧
    (∃ t, exec (.sneKk x kk) s = .next t ∧ t.pc = (if s.reg x = kk then s.pc + 2#16 else s.pc + 4#16) ∧ RegFrame [] s t) ∧
    (∃ t, exec (.seXy x y) s = .next t ∧ t.pc = (if s.reg x = s.reg y then s.pc + 4#16 else s.pc + 2#16) ∧ RegFrame [] s t) ∧
    (∃ t, exec (.sneXy x y) s = .next t ∧ t.pc = (if s.reg x = s.reg y then s.pc + 2#16 else s.pc + 4#16) ∧ RegFrame [] s t)

/-- Bnnn sets PC to V0 + nnn as integers, at most 0x10FE, not masked to 12 bits (R147; the spec's decision D17, log 16). -/
def Obligations.OffsetJumpAddsV0 : Prop :=
  ∀ (a : Addr12) (s : State), ∃ t, exec (.jpV0 a) s = .next t ∧
    t.pc.toNat = (s.reg 0#4).toNat + a.toNat ∧ t.pc.toNat ≤ 0x10FE ∧ RegFrame [] s t

/-! ## Loads and arithmetic (42_alu.md) -/

/-- R162, R163: LD Vx, kk loads the byte; ADD Vx, kk adds it modulo 256 with no flag.  Nothing but V[x] and PC + 2 changes. -/
def Obligations.ImmediateLoadAndAdd : Prop :=
  ∀ (x : Reg) (kk : Byte) (s : State),
    (∃ t, exec (.ldKk x kk) s = .next t ∧ t.reg x = kk ∧ t.pc = s.pc + 2#16 ∧ RegFrame [x] s t) ∧
    (∃ t, exec (.addKk x kk) s = .next t ∧ (t.reg x).toNat = ((s.reg x).toNat + kk.toNat) % 256 ∧ t.pc = s.pc + 2#16 ∧
      RegFrame [x] s t)

/-- R164, R165, R166, R167: copy, OR, AND and XOR write V[x] from the old V[x] and V[y]; VF is not written unless x = 0xF. -/
def Obligations.CopyAndBitwise : Prop :=
  ∀ (x y : Reg) (s : State),
    (∃ t, exec (.ldXy x y) s = .next t ∧ t.reg x = s.reg y ∧ t.pc = s.pc + 2#16 ∧ RegFrame [x] s t) ∧
    (∃ t, exec (.orXy x y) s = .next t ∧ t.reg x = s.reg x ||| s.reg y ∧ t.pc = s.pc + 2#16 ∧ RegFrame [x] s t) ∧
    (∃ t, exec (.andXy x y) s = .next t ∧ t.reg x = s.reg x &&& s.reg y ∧ t.pc = s.pc + 2#16 ∧ RegFrame [x] s t) ∧
    (∃ t, exec (.xorXy x y) s = .next t ∧ t.reg x = s.reg x ^^^ s.reg y ∧ t.pc = s.pc + 2#16 ∧ RegFrame [x] s t)

/-- R168: ADD Vx, Vy gives the sum modulo 256 and VF = 1 exactly when the integer sum exceeds 255; with x = 0xF it completes,
VF is any byte (unspecified, R161), and nothing else but PC changes. -/
def Obligations.AddSetsCarry : Prop :=
  ∀ (x y : Reg) (s : State), ∃ t, exec (.addXy x y) s = .next t ∧ t.pc = s.pc + 2#16 ∧ RegFrame [x, 0xF#4] s t ∧
    (x ≠ 0xF#4 → (t.reg x).toNat = ((s.reg x).toNat + (s.reg y).toNat) % 256 ∧
      (t.reg 0xF#4).toNat = if 255 < (s.reg x).toNat + (s.reg y).toNat then 1 else 0)

/-- R169, R171: SUB gives V[x] - V[y] and SUBN gives V[y] - V[x], modulo 256, with VF = 1 exactly when there is no borrow,
equality included; with x = 0xF each completes, VF is any byte, and nothing else but PC changes.  As integers, the difference is
the result less 256 times the complement of the flag (R174). -/
def Obligations.SubtractSetsNoBorrow : Prop :=
  ∀ (x y : Reg) (s : State),
    (∃ t, exec (.subXy x y) s = .next t ∧ t.pc = s.pc + 2#16 ∧ RegFrame [x, 0xF#4] s t ∧
      (x ≠ 0xF#4 → ((t.reg x).toNat : Int) = (((s.reg x).toNat : Int) - (s.reg y).toNat) % 256 ∧
        ((t.reg 0xF#4).toNat = if (s.reg y).toNat ≤ (s.reg x).toNat then 1 else 0) ∧
        ((s.reg x).toNat : Int) - (s.reg y).toNat = (t.reg x).toNat - 256 * (1 - ((t.reg 0xF#4).toNat : Int)))) ∧
    (∃ t, exec (.subnXy x y) s = .next t ∧ t.pc = s.pc + 2#16 ∧ RegFrame [x, 0xF#4] s t ∧
      (x ≠ 0xF#4 → ((t.reg x).toNat : Int) = (((s.reg y).toNat : Int) - (s.reg x).toNat) % 256 ∧
        ((t.reg 0xF#4).toNat = if (s.reg x).toNat ≤ (s.reg y).toNat then 1 else 0) ∧
        ((s.reg y).toNat : Int) - (s.reg x).toNat = (t.reg x).toNat - 256 * (1 - ((t.reg 0xF#4).toNat : Int))))

/-- R170, R172: SHR halves V[x] and VF is the old bit 0; SHL doubles it modulo 256 and VF is the old bit 7; V[y] plays no part;
with x = 0xF each completes, VF is any byte, and nothing else but PC changes. -/
def Obligations.ShiftsMoveOneBit : Prop :=
  ∀ (x y : Reg) (s : State),
    (∃ t, exec (.shrX x y) s = .next t ∧ t.pc = s.pc + 2#16 ∧ RegFrame [x, 0xF#4] s t ∧
      (x ≠ 0xF#4 → (t.reg x).toNat = (s.reg x).toNat / 2 ∧ (t.reg 0xF#4).toNat = (s.reg x).toNat % 2)) ∧
    (∃ t, exec (.shlX x y) s = .next t ∧ t.pc = s.pc + 2#16 ∧ RegFrame [x, 0xF#4] s t ∧
      (x ≠ 0xF#4 → (t.reg x).toNat = (s.reg x).toNat * 2 % 256 ∧ (t.reg 0xF#4).toNat = (s.reg x).toNat / 128))

/-- R173: RND writes V[x] with the byte drawn from the environment (whatever it is) AND kk: every bit where kk has a 0 is 0,
kk = 0x00 gives 0x00 and kk = 0xFF gives the byte itself.  Nothing else but PC changes. -/
def Obligations.RandomByteIsMasked : Prop :=
  ∀ (x : Reg) (kk : Byte) (s : State), ∃ t, exec (.rnd x kk) s = .next t ∧
    t.reg x = Config.drawByte s.draws &&& kk ∧ (∀ j, kk.getLsbD j = false → (t.reg x).getLsbD j = false) ∧
    (kk = 0x00#8 → t.reg x = 0x00#8) ∧ (kk = 0xFF#8 → t.reg x = Config.drawByte s.draws) ∧
    t.pc = s.pc + 2#16 ∧ RegFrame [x] s t

/-! ## Index register and memory (43_index_memory.md) -/

/-- R190, R192: LD I, addr sets I to the zero-extended address, LD F, Vx to V[x] times 5, the whole register; nothing but I and
PC + 2 changes. -/
def Obligations.IndexLoads : Prop :=
  ∀ (a : Addr12) (x : Reg) (s : State),
    (∃ t, exec (.ldI a) s = .next t ∧ t.i.toNat = a.toNat ∧ t.pc = s.pc + 2#16 ∧
      RegsSameBut [] s t ∧ StackSame s t ∧ TimersSame s t ∧ ScreenSame s t ∧ EnvSame s t ∧ MemSame s t) ∧
    (∃ t, exec (.ldF x) s = .next t ∧ t.i.toNat = (s.reg x).toNat * 5 ∧ t.pc = s.pc + 2#16 ∧
      RegsSameBut [] s t ∧ StackSame s t ∧ TimersSame s t ∧ ScreenSame s t ∧ EnvSame s t ∧ MemSame s t)

/-- Fx1E adds V[x] to I modulo 2^16, with no flag and no fault (R191; the wrap at 16 bits is the spec's decision D16, log 15). -/
def Obligations.IndexAddWrapsAtSixteenBits : Prop :=
  ∀ (x : Reg) (s : State), ∃ t, exec (.addIX x) s = .next t ∧ t.i.toNat = (s.i.toNat + (s.reg x).toNat) % 65536 ∧
    t.pc = s.pc + 2#16 ∧ RegsSameBut [] s t ∧ StackSame s t ∧ TimersSame s t ∧ ScreenSame s t ∧ EnvSame s t ∧ MemSame s t

/-- R194: LD B, Vx stores the hundreds, tens and units digits of V[x] at I, I+1 and I+2 and changes no other byte; when I + 2
is outside memory it raises AddressFault(PC, max(I, 0x1000)) and stores nothing (the spec's decision
D7, log 13). -/
def Obligations.BcdStoresThreeDigits : Prop :=
  ∀ (x : Reg) (s : State),
    (s.i.toNat + 2 < 0x1000 → ∃ t, exec (.ldB x) s = .next t ∧
      (Mem.read t.mem s.i.toNat).toNat = (s.reg x).toNat / 100 ∧
      (Mem.read t.mem (s.i.toNat + 1)).toNat = (s.reg x).toNat / 10 % 10 ∧
      (Mem.read t.mem (s.i.toNat + 2)).toNat = (s.reg x).toNat % 10 ∧
      MemSameOutside s.i.toNat 3 s t ∧ t.pc = s.pc + 2#16 ∧
      RegsSameBut [] s t ∧ t.i = s.i ∧ StackSame s t ∧ TimersSame s t ∧ ScreenSame s t ∧ EnvSame s t) ∧
    (0x1000 ≤ s.i.toNat + 2 →
      exec (.ldB x) s = .next { s with run := .halted (.addressFault s.pc (max s.i.toNat 0x1000)) })

/-- R195: LD [I], Vx stores V0 to Vx at I to I+x, changes no other byte and leaves I; when I + x is outside memory it raises
AddressFault(PC, max(I, 0x1000)) and stores nothing (the spec's decision
D7, log 13). -/
def Obligations.StoreRegistersFromI : Prop :=
  ∀ (x : Reg) (s : State),
    (s.i.toNat + x.toNat < 0x1000 → ∃ t, exec (.ldMemX x) s = .next t ∧
      (∀ j : Reg, j.toNat ≤ x.toNat → Mem.read t.mem (s.i.toNat + j.toNat) = s.reg j) ∧
      MemSameOutside s.i.toNat (x.toNat + 1) s t ∧ t.pc = s.pc + 2#16 ∧
      RegsSameBut [] s t ∧ t.i = s.i ∧ StackSame s t ∧ TimersSame s t ∧ ScreenSame s t ∧ EnvSame s t) ∧
    (0x1000 ≤ s.i.toNat + x.toNat →
      exec (.ldMemX x) s = .next { s with run := .halted (.addressFault s.pc (max s.i.toNat 0x1000)) })

/-- R196: LD Vx, [I] loads V0 to Vx from I to I+x and leaves the registers above x, I and memory; when I + x is outside memory
it raises AddressFault(PC, max(I, 0x1000)) and loads nothing (the spec's decision
D7, log 13). -/
def Obligations.LoadRegistersFromI : Prop :=
  ∀ (x : Reg) (s : State),
    (s.i.toNat + x.toNat < 0x1000 → ∃ t, exec (.ldXMem x) s = .next t ∧
      (∀ j : Reg, t.reg j = if j.toNat ≤ x.toNat then Mem.read s.mem (s.i.toNat + j.toNat) else s.reg j) ∧
      t.pc = s.pc + 2#16 ∧ t.i = s.i ∧ StackSame s t ∧ TimersSame s t ∧ ScreenSame s t ∧ EnvSame s t ∧ MemSame s t) ∧
    (0x1000 ≤ s.i.toNat + x.toNat →
      exec (.ldXMem x) s = .next { s with run := .halted (.addressFault s.pc (max s.i.toNat 0x1000)) })

/-- Registers stored with Fx55 are loaded back by Fx65 from the same I, whatever else has changed (R195, R196, R73). -/
def Obligations.StoreThenLoadRestoresRegisters : Prop :=
  ∀ (x : Reg) (s : State), s.i.toNat + x.toNat < 0x1000 →
    ∃ t, exec (.ldMemX x) s = .next t ∧ ∀ u : State, u.mem = t.mem → u.i = s.i →
      ∃ w, exec (.ldXMem x) u = .next w ∧ ∀ j : Reg, j.toNat ≤ x.toNat → w.reg j = s.reg j

/-- Self-modifying code takes effect at the next fetch of the written bytes: after Fx55, a fetch at I + j for j < x gives the
word V[j] ++ V[j+1] (R75, which the spec derives from R60, R71 and R73). -/
def Obligations.FetchSeesEarlierStores : Prop :=
  ∀ (x j k : Reg) (s : State), s.i.toNat + x.toNat < 0x1000 → k.toNat ≤ x.toNat → k.toNat = j.toNat + 1 →
    ∃ t, exec (.ldMemX x) s = .next t ∧ ∀ u : State, u.mem = t.mem → u.pc.toNat = s.i.toNat + j.toNat →
      fetch u = .ok (s.reg j ++ s.reg k)

/-! ## Display (44_display.md) -/

/-- R210: CLS turns every pixel off and sets DIRTY, whatever the framebuffer held; nothing else but PC changes. -/
def Obligations.ClearScreen : Prop :=
  ∀ s : State, ∃ t, exec .cls s = .next t ∧ (∀ r c, pixel t.fb r c = false) ∧ t.dirty = true ∧ t.pc = s.pc + 2#16 ∧
    RegsSameBut [] s t ∧ t.i = s.i ∧ StackSame s t ∧ TimersSame s t ∧ EnvSame s t ∧ MemSame s t

/-- DRW flips exactly the pixels that a 1 bit of the sprite lands on, sets VF to 1 when one of them was on and to 0 otherwise, and
sets DIRTY; n = 0 reads no memory (R211, R214).  Bit 7 leftmost, the vertical wrap and the coordinates read before VF is written
are the spec's decisions D12, D13 and D9 (logs 17, 18, 24). -/
def Obligations.DrawFlipsTheSpritePixels : Prop :=
  ∀ (x y : Reg) (n : Nibble) (s : State), (n = 0#4 ∨ s.i.toNat + n.toNat ≤ 0x1000) →
    ∃ t, exec (.drw x y n) s = .next t ∧
      (∀ r c, SpriteLights s x y n r c → pixel t.fb r c = !pixel s.fb r c) ∧
      (∀ r c, ¬ SpriteLights s x y n r c → pixel t.fb r c = pixel s.fb r c) ∧
      ((∃ r c, SpriteLights s x y n r c ∧ pixel s.fb r c = true) → t.reg 0xF#4 = 1#8) ∧
      ((¬ ∃ r c, SpriteLights s x y n r c ∧ pixel s.fb r c = true) → t.reg 0xF#4 = 0#8) ∧
      t.dirty = true ∧ t.pc = s.pc + 2#16 ∧
      RegsSameBut [0xF#4] s t ∧ t.i = s.i ∧ StackSame s t ∧ TimersSame s t ∧ EnvSame s t ∧ MemSame s t

/-- A draw of at least one row whose sprite leaves memory raises AddressFault(PC, max(I, 0x1000)) before any pixel or register is
written (R211, R193; the spec's decision D7, log 13). -/
def Obligations.DrawOutsideMemoryHalts : Prop :=
  ∀ (x y : Reg) (n : Nibble) (s : State), n ≠ 0#4 → 0x1000 < s.i.toNat + n.toNat →
    exec (.drw x y n) s = .next { s with run := .halted (.addressFault s.pc (max s.i.toNat 0x1000)) }

/-- Drawing the same sprite twice at the same position restores every pixel, for x and y other than 0xF (R215, which the spec
derives from R211).  The second draw collides exactly when some 1 bit of the sprite lands on a pixel that was off before the first
draw: that is what R211 gives, and R215's "whenever the sprite has at least one 1 bit" holds only then (log 33). -/
def Obligations.DrawTwiceRestoresTheFrame : Prop :=
  ∀ (x y : Reg) (n : Nibble) (s : State), x ≠ 0xF#4 → y ≠ 0xF#4 → (n = 0#4 ∨ s.i.toNat + n.toNat ≤ 0x1000) →
    ∃ t u, exec (.drw x y n) s = .next t ∧ exec (.drw x y n) t = .next u ∧ (∀ r c, pixel u.fb r c = pixel s.fb r c) ∧
      ((∃ r c, SpriteLights s x y n r c ∧ pixel s.fb r c = false) → u.reg 0xF#4 = 1#8) ∧
      ((¬ ∃ r c, SpriteLights s x y n r c ∧ pixel s.fb r c = false) → u.reg 0xF#4 = 0#8)

/-! ## Keypad (45_keypad.md) -/

/-- SKP and SKNP skip by the level of key V[x]; when V[x] exceeds 0x0F each raises KeyIndexFault(PC, V[x]) (R220, R221; the fault is
the spec's decision D14, log 14). -/
def Obligations.KeySkips : Prop :=
  ∀ (x : Reg) (s : State),
    (∀ h : (s.reg x).toNat < 16,
      (∃ t, exec (.skp x) s = .next t ∧ t.pc = (if s.keys[(s.reg x).toNat] = true then s.pc + 4#16 else s.pc + 2#16) ∧
        RegFrame [] s t) ∧
      (∃ t, exec (.sknp x) s = .next t ∧ t.pc = (if s.keys[(s.reg x).toNat] = true then s.pc + 2#16 else s.pc + 4#16) ∧
        RegFrame [] s t)) ∧
    (0x0F < (s.reg x).toNat →
      exec (.skp x) s = .next { s with run := .halted (.keyIndexFault s.pc (s.reg x)) } ∧
      exec (.sknp x) s = .next { s with run := .halted (.keyIndexFault s.pc (s.reg x)) })

/-- LD Vx, K with some key pressed stores the number of a pressed key and goes on; with none pressed PC is held and nothing is
written (R222; that any of several pressed keys may be stored is the spec's decision D15, log 8). -/
def Obligations.KeyWait : Prop :=
  ∀ (x : Reg) (s : State),
    ((∃ k : Fin 16, s.keys[k.val] = true) → ∃ t, exec (.ldXK x) s = .next t ∧
      (∃ k : Fin 16, s.keys[k.val] = true ∧ (t.reg x).toNat = k.val) ∧ t.pc = s.pc + 2#16 ∧ RegFrame [x] s t) ∧
    ((∀ k : Fin 16, s.keys[k.val] = false) → exec (.ldXK x) s = .next s)

/-! ## Timers (46_timers.md) -/

/-- R230, R231, R232: LD Vx, DT copies DT to V[x]; LD DT, Vx and LD ST, Vx copy V[x] to DT and to ST; nothing else but PC
changes. -/
def Obligations.TimerAccess : Prop :=
  ∀ (x : Reg) (s : State),
    (∃ t, exec (.ldXDt x) s = .next t ∧ t.reg x = s.dt ∧ t.pc = s.pc + 2#16 ∧ RegFrame [x] s t) ∧
    (∃ t, exec (.ldDtX x) s = .next t ∧ t.dt = s.reg x ∧ t.st = s.st ∧ t.pc = s.pc + 2#16 ∧
      RegsSameBut [] s t ∧ t.i = s.i ∧ StackSame s t ∧ ScreenSame s t ∧ EnvSame s t ∧ MemSame s t) ∧
    (∃ t, exec (.ldStX x) s = .next t ∧ t.st = s.reg x ∧ t.dt = s.dt ∧ t.pc = s.pc + 2#16 ∧
      RegsSameBut [] s t ∧ t.i = s.i ∧ StackSame s t ∧ ScreenSame s t ∧ EnvSame s t ∧ MemSame s t)

/-! ## Fairness of the schedule (60_exceptions.md) -/

/-- A schedule in which ticks from outside or paced steps recur is fair: while the block is Running and the host keeps
running rounds, ticks occur infinitely often (R265).  So the reference scheduler's rounds are fair: their ticks come inside the
paced steps, however the clock rate relates to 60 Hz (R261; the spec's decisions D20 and D21).  Nothing is assumed of the keypad. -/
def Obligations.RecurringPacedStepsAreFair : Prop :=
  ∀ (sched : Nat → Input) (s : State), (∀ n, ∃ m, n ≤ m ∧ (sched m = .tickIn ∨ sched m = .pacedIn)) →
    FairTicks sched s
end

