-- ==== Sys2Proof/Laws/Decode.lean ====
section
/-! SUPPORT. The fields of a word and of the words that the encoder writes, as numbers (30_encoding.md R11, R91, R92). -/

namespace Sys2Proof

/-! ### The fields of a word as numbers -/

theorem fieldOp_toNat (w : Word) : (fieldOp w).toNat = w.toNat / 4096 % 16 := by
  simp [fieldOp, Nat.shiftRight_eq_div_pow]
theorem fieldX_toNat (w : Word) : (fieldX w).toNat = w.toNat / 256 % 16 := by
  simp [fieldX, Nat.shiftRight_eq_div_pow]
theorem fieldY_toNat (w : Word) : (fieldY w).toNat = w.toNat / 16 % 16 := by
  simp [fieldY, Nat.shiftRight_eq_div_pow]
theorem fieldN_toNat (w : Word) : (fieldN w).toNat = w.toNat % 16 := by simp [fieldN]
theorem fieldKk_toNat (w : Word) : (fieldKk w).toNat = w.toNat % 256 := by simp [fieldKk]
theorem fieldNnn_toNat (w : Word) : (fieldNnn w).toNat = w.toNat % 4096 := by simp [fieldNnn]
theorem highByte_toNat (w : Word) : (highByte w).toNat = w.toNat / 256 % 256 := by
  simp [highByte, Nat.shiftRight_eq_div_pow]
theorem lowByte_toNat (w : Word) : (lowByte w).toNat = w.toNat % 256 := by simp [lowByte]

/-! ### The encoder's words as numbers -/

theorem append_toNat {m n : Nat} (a : BitVec m) (b : BitVec n) : (a ++ b).toNat = a.toNat * 2 ^ n + b.toNat := by
  rw [BitVec.toNat_append, ← Nat.shiftLeft_add_eq_or_of_lt b.isLt, Nat.shiftLeft_eq]

theorem wordOfBytes_toNat (hi lo : Byte) : (wordOfBytes hi lo).toNat = hi.toNat * 256 + lo.toNat := append_toNat hi lo

theorem fmtNNN_toNat (o : Nibble) (a : Addr12) : (fmtNNN o a).toNat = o.toNat * 4096 + a.toNat := append_toNat o a

theorem fmtXKK_toNat (o : Nibble) (x : Reg) (kk : Byte) :
    (fmtXKK o x kk).toNat = o.toNat * 4096 + x.toNat * 256 + kk.toNat := by
  have h : (fmtXKK o x kk).toNat = (o ++ x).toNat * 256 + kk.toNat := append_toNat (o ++ x) kk
  rw [h, append_toNat]; omega

theorem fmtXYN_toNat (o : Nibble) (x y : Reg) (n : Nibble) :
    (fmtXYN o x y n).toNat = o.toNat * 4096 + x.toNat * 256 + y.toNat * 16 + n.toNat := by
  have h : (fmtXYN o x y n).toNat = (o ++ x ++ y).toNat * 16 + n.toNat := append_toNat (o ++ x ++ y) n
  rw [h, append_toNat (o ++ x) y, append_toNat]; omega

/-- A word is its two bytes, high byte first (R65). -/
theorem wordOfBytes_bytes (w : Word) : wordOfBytes (highByte w) (lowByte w) = w := by
  apply BitVec.eq_of_toNat_eq
  have := w.isLt
  rw [wordOfBytes_toNat, highByte_toNat, lowByte_toNat]; omega

/-! ### The fields of the encoder's words -/

@[simp] theorem fieldOp_fmtNNN (o : Nibble) (a : Addr12) : fieldOp (fmtNNN o a) = o := by
  apply BitVec.eq_of_toNat_eq; have := a.isLt; have := o.isLt; rw [fieldOp_toNat, fmtNNN_toNat]; omega
@[simp] theorem fieldNnn_fmtNNN (o : Nibble) (a : Addr12) : fieldNnn (fmtNNN o a) = a := by
  apply BitVec.eq_of_toNat_eq; have := a.isLt; rw [fieldNnn_toNat, fmtNNN_toNat]; omega

@[simp] theorem fieldOp_fmtXKK (o : Nibble) (x : Reg) (kk : Byte) : fieldOp (fmtXKK o x kk) = o := by
  apply BitVec.eq_of_toNat_eq; have := o.isLt; have := x.isLt; have := kk.isLt; rw [fieldOp_toNat, fmtXKK_toNat]; omega
@[simp] theorem fieldX_fmtXKK (o : Nibble) (x : Reg) (kk : Byte) : fieldX (fmtXKK o x kk) = x := by
  apply BitVec.eq_of_toNat_eq; have := x.isLt; have := kk.isLt; rw [fieldX_toNat, fmtXKK_toNat]; omega
@[simp] theorem fieldKk_fmtXKK (o : Nibble) (x : Reg) (kk : Byte) : fieldKk (fmtXKK o x kk) = kk := by
  apply BitVec.eq_of_toNat_eq; have := kk.isLt; rw [fieldKk_toNat, fmtXKK_toNat]; omega

@[simp] theorem fieldOp_fmtXYN (o : Nibble) (x y : Reg) (n : Nibble) : fieldOp (fmtXYN o x y n) = o := by
  apply BitVec.eq_of_toNat_eq; have := o.isLt; have := x.isLt; have := y.isLt; have := n.isLt
  rw [fieldOp_toNat, fmtXYN_toNat]; omega
@[simp] theorem fieldX_fmtXYN (o : Nibble) (x y : Reg) (n : Nibble) : fieldX (fmtXYN o x y n) = x := by
  apply BitVec.eq_of_toNat_eq; have := x.isLt; have := y.isLt; have := n.isLt; rw [fieldX_toNat, fmtXYN_toNat]; omega
@[simp] theorem fieldY_fmtXYN (o : Nibble) (x y : Reg) (n : Nibble) : fieldY (fmtXYN o x y n) = y := by
  apply BitVec.eq_of_toNat_eq; have := y.isLt; have := n.isLt; rw [fieldY_toNat, fmtXYN_toNat]; omega
@[simp] theorem fieldN_fmtXYN (o : Nibble) (x y : Reg) (n : Nibble) : fieldN (fmtXYN o x y n) = n := by
  apply BitVec.eq_of_toNat_eq; have := n.isLt; rw [fieldN_toNat, fmtXYN_toNat]; omega

end Sys2Proof
end

