-- ==== Sys2Proof/Laws/State.lean ====
section
/-! SUPPORT. What each named update of the state leaves in each field: one lemma per field per update. -/

namespace Sys2Proof.Machine

/-! ### State.setV -/

@[simp] theorem State.setV_v (s : State) (x : Reg) (b : Byte) : (s.setV x b).v = setReg s.v x b := rfl
@[simp] theorem State.setV_i (s : State) (x : Reg) (b : Byte) : (s.setV x b).i = s.i := rfl
@[simp] theorem State.setV_pc (s : State) (x : Reg) (b : Byte) : (s.setV x b).pc = s.pc := rfl
@[simp] theorem State.setV_stack (s : State) (x : Reg) (b : Byte) : (s.setV x b).stack = s.stack := rfl
@[simp] theorem State.setV_sp (s : State) (x : Reg) (b : Byte) : (s.setV x b).sp = s.sp := rfl
@[simp] theorem State.setV_dt (s : State) (x : Reg) (b : Byte) : (s.setV x b).dt = s.dt := rfl
@[simp] theorem State.setV_st (s : State) (x : Reg) (b : Byte) : (s.setV x b).st = s.st := rfl
@[simp] theorem State.setV_keys (s : State) (x : Reg) (b : Byte) : (s.setV x b).keys = s.keys := rfl
@[simp] theorem State.setV_fb (s : State) (x : Reg) (b : Byte) : (s.setV x b).fb = s.fb := rfl
@[simp] theorem State.setV_dirty (s : State) (x : Reg) (b : Byte) : (s.setV x b).dirty = s.dirty := rfl
@[simp] theorem State.setV_run (s : State) (x : Reg) (b : Byte) : (s.setV x b).run = s.run := rfl
@[simp] theorem State.setV_acc (s : State) (x : Reg) (b : Byte) : (s.setV x b).acc = s.acc := rfl
@[simp] theorem State.setV_mem (s : State) (x : Reg) (b : Byte) : (s.setV x b).mem = s.mem := rfl
@[simp] theorem State.setV_draws (s : State) (x : Reg) (b : Byte) : (s.setV x b).draws = s.draws := rfl
@[simp] theorem State.setV_inputs (s : State) (x : Reg) (b : Byte) : (s.setV x b).inputs = s.inputs := rfl

/-! ### State.setRegs -/

@[simp] theorem State.setRegs_v (s : State) (v : Regs) : (s.setRegs v).v = v := rfl
@[simp] theorem State.setRegs_i (s : State) (v : Regs) : (s.setRegs v).i = s.i := rfl
@[simp] theorem State.setRegs_pc (s : State) (v : Regs) : (s.setRegs v).pc = s.pc := rfl
@[simp] theorem State.setRegs_stack (s : State) (v : Regs) : (s.setRegs v).stack = s.stack := rfl
@[simp] theorem State.setRegs_sp (s : State) (v : Regs) : (s.setRegs v).sp = s.sp := rfl
@[simp] theorem State.setRegs_dt (s : State) (v : Regs) : (s.setRegs v).dt = s.dt := rfl
@[simp] theorem State.setRegs_st (s : State) (v : Regs) : (s.setRegs v).st = s.st := rfl
@[simp] theorem State.setRegs_keys (s : State) (v : Regs) : (s.setRegs v).keys = s.keys := rfl
@[simp] theorem State.setRegs_fb (s : State) (v : Regs) : (s.setRegs v).fb = s.fb := rfl
@[simp] theorem State.setRegs_dirty (s : State) (v : Regs) : (s.setRegs v).dirty = s.dirty := rfl
@[simp] theorem State.setRegs_run (s : State) (v : Regs) : (s.setRegs v).run = s.run := rfl
@[simp] theorem State.setRegs_acc (s : State) (v : Regs) : (s.setRegs v).acc = s.acc := rfl
@[simp] theorem State.setRegs_mem (s : State) (v : Regs) : (s.setRegs v).mem = s.mem := rfl
@[simp] theorem State.setRegs_draws (s : State) (v : Regs) : (s.setRegs v).draws = s.draws := rfl
@[simp] theorem State.setRegs_inputs (s : State) (v : Regs) : (s.setRegs v).inputs = s.inputs := rfl

/-! ### State.setI -/

@[simp] theorem State.setI_v (s : State) (w : Word) : (s.setI w).v = s.v := rfl
@[simp] theorem State.setI_i (s : State) (w : Word) : (s.setI w).i = w := rfl
@[simp] theorem State.setI_pc (s : State) (w : Word) : (s.setI w).pc = s.pc := rfl
@[simp] theorem State.setI_stack (s : State) (w : Word) : (s.setI w).stack = s.stack := rfl
@[simp] theorem State.setI_sp (s : State) (w : Word) : (s.setI w).sp = s.sp := rfl
@[simp] theorem State.setI_dt (s : State) (w : Word) : (s.setI w).dt = s.dt := rfl
@[simp] theorem State.setI_st (s : State) (w : Word) : (s.setI w).st = s.st := rfl
@[simp] theorem State.setI_keys (s : State) (w : Word) : (s.setI w).keys = s.keys := rfl
@[simp] theorem State.setI_fb (s : State) (w : Word) : (s.setI w).fb = s.fb := rfl
@[simp] theorem State.setI_dirty (s : State) (w : Word) : (s.setI w).dirty = s.dirty := rfl
@[simp] theorem State.setI_run (s : State) (w : Word) : (s.setI w).run = s.run := rfl
@[simp] theorem State.setI_acc (s : State) (w : Word) : (s.setI w).acc = s.acc := rfl
@[simp] theorem State.setI_mem (s : State) (w : Word) : (s.setI w).mem = s.mem := rfl
@[simp] theorem State.setI_draws (s : State) (w : Word) : (s.setI w).draws = s.draws := rfl
@[simp] theorem State.setI_inputs (s : State) (w : Word) : (s.setI w).inputs = s.inputs := rfl

/-! ### State.setDt -/

@[simp] theorem State.setDt_v (s : State) (b : Byte) : (s.setDt b).v = s.v := rfl
@[simp] theorem State.setDt_i (s : State) (b : Byte) : (s.setDt b).i = s.i := rfl
@[simp] theorem State.setDt_pc (s : State) (b : Byte) : (s.setDt b).pc = s.pc := rfl
@[simp] theorem State.setDt_stack (s : State) (b : Byte) : (s.setDt b).stack = s.stack := rfl
@[simp] theorem State.setDt_sp (s : State) (b : Byte) : (s.setDt b).sp = s.sp := rfl
@[simp] theorem State.setDt_dt (s : State) (b : Byte) : (s.setDt b).dt = b := rfl
@[simp] theorem State.setDt_st (s : State) (b : Byte) : (s.setDt b).st = s.st := rfl
@[simp] theorem State.setDt_keys (s : State) (b : Byte) : (s.setDt b).keys = s.keys := rfl
@[simp] theorem State.setDt_fb (s : State) (b : Byte) : (s.setDt b).fb = s.fb := rfl
@[simp] theorem State.setDt_dirty (s : State) (b : Byte) : (s.setDt b).dirty = s.dirty := rfl
@[simp] theorem State.setDt_run (s : State) (b : Byte) : (s.setDt b).run = s.run := rfl
@[simp] theorem State.setDt_acc (s : State) (b : Byte) : (s.setDt b).acc = s.acc := rfl
@[simp] theorem State.setDt_mem (s : State) (b : Byte) : (s.setDt b).mem = s.mem := rfl
@[simp] theorem State.setDt_draws (s : State) (b : Byte) : (s.setDt b).draws = s.draws := rfl
@[simp] theorem State.setDt_inputs (s : State) (b : Byte) : (s.setDt b).inputs = s.inputs := rfl

/-! ### State.setSt -/

@[simp] theorem State.setSt_v (s : State) (b : Byte) : (s.setSt b).v = s.v := rfl
@[simp] theorem State.setSt_i (s : State) (b : Byte) : (s.setSt b).i = s.i := rfl
@[simp] theorem State.setSt_pc (s : State) (b : Byte) : (s.setSt b).pc = s.pc := rfl
@[simp] theorem State.setSt_stack (s : State) (b : Byte) : (s.setSt b).stack = s.stack := rfl
@[simp] theorem State.setSt_sp (s : State) (b : Byte) : (s.setSt b).sp = s.sp := rfl
@[simp] theorem State.setSt_dt (s : State) (b : Byte) : (s.setSt b).dt = s.dt := rfl
@[simp] theorem State.setSt_st (s : State) (b : Byte) : (s.setSt b).st = b := rfl
@[simp] theorem State.setSt_keys (s : State) (b : Byte) : (s.setSt b).keys = s.keys := rfl
@[simp] theorem State.setSt_fb (s : State) (b : Byte) : (s.setSt b).fb = s.fb := rfl
@[simp] theorem State.setSt_dirty (s : State) (b : Byte) : (s.setSt b).dirty = s.dirty := rfl
@[simp] theorem State.setSt_run (s : State) (b : Byte) : (s.setSt b).run = s.run := rfl
@[simp] theorem State.setSt_acc (s : State) (b : Byte) : (s.setSt b).acc = s.acc := rfl
@[simp] theorem State.setSt_mem (s : State) (b : Byte) : (s.setSt b).mem = s.mem := rfl
@[simp] theorem State.setSt_draws (s : State) (b : Byte) : (s.setSt b).draws = s.draws := rfl
@[simp] theorem State.setSt_inputs (s : State) (b : Byte) : (s.setSt b).inputs = s.inputs := rfl

/-! ### State.setMem -/

@[simp] theorem State.setMem_v (s : State) (m : Mem) : (s.setMem m).v = s.v := rfl
@[simp] theorem State.setMem_i (s : State) (m : Mem) : (s.setMem m).i = s.i := rfl
@[simp] theorem State.setMem_pc (s : State) (m : Mem) : (s.setMem m).pc = s.pc := rfl
@[simp] theorem State.setMem_stack (s : State) (m : Mem) : (s.setMem m).stack = s.stack := rfl
@[simp] theorem State.setMem_sp (s : State) (m : Mem) : (s.setMem m).sp = s.sp := rfl
@[simp] theorem State.setMem_dt (s : State) (m : Mem) : (s.setMem m).dt = s.dt := rfl
@[simp] theorem State.setMem_st (s : State) (m : Mem) : (s.setMem m).st = s.st := rfl
@[simp] theorem State.setMem_keys (s : State) (m : Mem) : (s.setMem m).keys = s.keys := rfl
@[simp] theorem State.setMem_fb (s : State) (m : Mem) : (s.setMem m).fb = s.fb := rfl
@[simp] theorem State.setMem_dirty (s : State) (m : Mem) : (s.setMem m).dirty = s.dirty := rfl
@[simp] theorem State.setMem_run (s : State) (m : Mem) : (s.setMem m).run = s.run := rfl
@[simp] theorem State.setMem_acc (s : State) (m : Mem) : (s.setMem m).acc = s.acc := rfl
@[simp] theorem State.setMem_mem (s : State) (m : Mem) : (s.setMem m).mem = m := rfl
@[simp] theorem State.setMem_draws (s : State) (m : Mem) : (s.setMem m).draws = s.draws := rfl
@[simp] theorem State.setMem_inputs (s : State) (m : Mem) : (s.setMem m).inputs = s.inputs := rfl

/-! ### State.drew -/

@[simp] theorem State.drew_v (s : State) : (s.drew).v = s.v := rfl
@[simp] theorem State.drew_i (s : State) : (s.drew).i = s.i := rfl
@[simp] theorem State.drew_pc (s : State) : (s.drew).pc = s.pc := rfl
@[simp] theorem State.drew_stack (s : State) : (s.drew).stack = s.stack := rfl
@[simp] theorem State.drew_sp (s : State) : (s.drew).sp = s.sp := rfl
@[simp] theorem State.drew_dt (s : State) : (s.drew).dt = s.dt := rfl
@[simp] theorem State.drew_st (s : State) : (s.drew).st = s.st := rfl
@[simp] theorem State.drew_keys (s : State) : (s.drew).keys = s.keys := rfl
@[simp] theorem State.drew_fb (s : State) : (s.drew).fb = s.fb := rfl
@[simp] theorem State.drew_dirty (s : State) : (s.drew).dirty = s.dirty := rfl
@[simp] theorem State.drew_run (s : State) : (s.drew).run = s.run := rfl
@[simp] theorem State.drew_acc (s : State) : (s.drew).acc = s.acc := rfl
@[simp] theorem State.drew_mem (s : State) : (s.drew).mem = s.mem := rfl
@[simp] theorem State.drew_draws (s : State) : (s.drew).draws = s.draws + 1 := rfl
@[simp] theorem State.drew_inputs (s : State) : (s.drew).inputs = s.inputs := rfl

/-! ### State.goto -/

@[simp] theorem State.goto_v (s : State) (t : Word) : (s.goto t).v = s.v := rfl
@[simp] theorem State.goto_i (s : State) (t : Word) : (s.goto t).i = s.i := rfl
@[simp] theorem State.goto_pc (s : State) (t : Word) : (s.goto t).pc = t := rfl
@[simp] theorem State.goto_stack (s : State) (t : Word) : (s.goto t).stack = s.stack := rfl
@[simp] theorem State.goto_sp (s : State) (t : Word) : (s.goto t).sp = s.sp := rfl
@[simp] theorem State.goto_dt (s : State) (t : Word) : (s.goto t).dt = s.dt := rfl
@[simp] theorem State.goto_st (s : State) (t : Word) : (s.goto t).st = s.st := rfl
@[simp] theorem State.goto_keys (s : State) (t : Word) : (s.goto t).keys = s.keys := rfl
@[simp] theorem State.goto_fb (s : State) (t : Word) : (s.goto t).fb = s.fb := rfl
@[simp] theorem State.goto_dirty (s : State) (t : Word) : (s.goto t).dirty = s.dirty := rfl
@[simp] theorem State.goto_run (s : State) (t : Word) : (s.goto t).run = s.run := rfl
@[simp] theorem State.goto_acc (s : State) (t : Word) : (s.goto t).acc = s.acc := rfl
@[simp] theorem State.goto_mem (s : State) (t : Word) : (s.goto t).mem = s.mem := rfl
@[simp] theorem State.goto_draws (s : State) (t : Word) : (s.goto t).draws = s.draws := rfl
@[simp] theorem State.goto_inputs (s : State) (t : Word) : (s.goto t).inputs = s.inputs := rfl

/-! ### State.seq -/

@[simp] theorem State.seq_v (s : State) : (s.seq).v = s.v := rfl
@[simp] theorem State.seq_i (s : State) : (s.seq).i = s.i := rfl
@[simp] theorem State.seq_pc (s : State) : (s.seq).pc = s.pc + 2#16 := rfl
@[simp] theorem State.seq_stack (s : State) : (s.seq).stack = s.stack := rfl
@[simp] theorem State.seq_sp (s : State) : (s.seq).sp = s.sp := rfl
@[simp] theorem State.seq_dt (s : State) : (s.seq).dt = s.dt := rfl
@[simp] theorem State.seq_st (s : State) : (s.seq).st = s.st := rfl
@[simp] theorem State.seq_keys (s : State) : (s.seq).keys = s.keys := rfl
@[simp] theorem State.seq_fb (s : State) : (s.seq).fb = s.fb := rfl
@[simp] theorem State.seq_dirty (s : State) : (s.seq).dirty = s.dirty := rfl
@[simp] theorem State.seq_run (s : State) : (s.seq).run = s.run := rfl
@[simp] theorem State.seq_acc (s : State) : (s.seq).acc = s.acc := rfl
@[simp] theorem State.seq_mem (s : State) : (s.seq).mem = s.mem := rfl
@[simp] theorem State.seq_draws (s : State) : (s.seq).draws = s.draws := rfl
@[simp] theorem State.seq_inputs (s : State) : (s.seq).inputs = s.inputs := rfl

/-! ### State.skip -/

@[simp] theorem State.skip_v (s : State) : (s.skip).v = s.v := rfl
@[simp] theorem State.skip_i (s : State) : (s.skip).i = s.i := rfl
@[simp] theorem State.skip_pc (s : State) : (s.skip).pc = s.pc + 4#16 := rfl
@[simp] theorem State.skip_stack (s : State) : (s.skip).stack = s.stack := rfl
@[simp] theorem State.skip_sp (s : State) : (s.skip).sp = s.sp := rfl
@[simp] theorem State.skip_dt (s : State) : (s.skip).dt = s.dt := rfl
@[simp] theorem State.skip_st (s : State) : (s.skip).st = s.st := rfl
@[simp] theorem State.skip_keys (s : State) : (s.skip).keys = s.keys := rfl
@[simp] theorem State.skip_fb (s : State) : (s.skip).fb = s.fb := rfl
@[simp] theorem State.skip_dirty (s : State) : (s.skip).dirty = s.dirty := rfl
@[simp] theorem State.skip_run (s : State) : (s.skip).run = s.run := rfl
@[simp] theorem State.skip_acc (s : State) : (s.skip).acc = s.acc := rfl
@[simp] theorem State.skip_mem (s : State) : (s.skip).mem = s.mem := rfl
@[simp] theorem State.skip_draws (s : State) : (s.skip).draws = s.draws := rfl
@[simp] theorem State.skip_inputs (s : State) : (s.skip).inputs = s.inputs := rfl

/-! ### State.halt -/

@[simp] theorem State.halt_v (s : State) (r : HaltReason) : (s.halt r).v = s.v := rfl
@[simp] theorem State.halt_i (s : State) (r : HaltReason) : (s.halt r).i = s.i := rfl
@[simp] theorem State.halt_pc (s : State) (r : HaltReason) : (s.halt r).pc = s.pc := rfl
@[simp] theorem State.halt_stack (s : State) (r : HaltReason) : (s.halt r).stack = s.stack := rfl
@[simp] theorem State.halt_sp (s : State) (r : HaltReason) : (s.halt r).sp = s.sp := rfl
@[simp] theorem State.halt_dt (s : State) (r : HaltReason) : (s.halt r).dt = s.dt := rfl
@[simp] theorem State.halt_st (s : State) (r : HaltReason) : (s.halt r).st = s.st := rfl
@[simp] theorem State.halt_keys (s : State) (r : HaltReason) : (s.halt r).keys = s.keys := rfl
@[simp] theorem State.halt_fb (s : State) (r : HaltReason) : (s.halt r).fb = s.fb := rfl
@[simp] theorem State.halt_dirty (s : State) (r : HaltReason) : (s.halt r).dirty = s.dirty := rfl
@[simp] theorem State.halt_run (s : State) (r : HaltReason) : (s.halt r).run = .halted r := rfl
@[simp] theorem State.halt_acc (s : State) (r : HaltReason) : (s.halt r).acc = s.acc := rfl
@[simp] theorem State.halt_mem (s : State) (r : HaltReason) : (s.halt r).mem = s.mem := rfl
@[simp] theorem State.halt_draws (s : State) (r : HaltReason) : (s.halt r).draws = s.draws := rfl
@[simp] theorem State.halt_inputs (s : State) (r : HaltReason) : (s.halt r).inputs = s.inputs := rfl

/-! ### State.push -/

@[simp] theorem State.push_v (s : State) (t : Word) : (s.push t).v = s.v := rfl
@[simp] theorem State.push_i (s : State) (t : Word) : (s.push t).i = s.i := rfl
@[simp] theorem State.push_pc (s : State) (t : Word) : (s.push t).pc = s.pc := rfl
@[simp] theorem State.push_stack (s : State) (t : Word) : (s.push t).stack = stackSet s.stack s.sp t := rfl
@[simp] theorem State.push_sp (s : State) (t : Word) : (s.push t).sp = s.sp + 1 := rfl
@[simp] theorem State.push_dt (s : State) (t : Word) : (s.push t).dt = s.dt := rfl
@[simp] theorem State.push_st (s : State) (t : Word) : (s.push t).st = s.st := rfl
@[simp] theorem State.push_keys (s : State) (t : Word) : (s.push t).keys = s.keys := rfl
@[simp] theorem State.push_fb (s : State) (t : Word) : (s.push t).fb = s.fb := rfl
@[simp] theorem State.push_dirty (s : State) (t : Word) : (s.push t).dirty = s.dirty := rfl
@[simp] theorem State.push_run (s : State) (t : Word) : (s.push t).run = s.run := rfl
@[simp] theorem State.push_acc (s : State) (t : Word) : (s.push t).acc = s.acc := rfl
@[simp] theorem State.push_mem (s : State) (t : Word) : (s.push t).mem = s.mem := rfl
@[simp] theorem State.push_draws (s : State) (t : Word) : (s.push t).draws = s.draws := rfl
@[simp] theorem State.push_inputs (s : State) (t : Word) : (s.push t).inputs = s.inputs := rfl

/-! ### State.drop -/

@[simp] theorem State.drop_v (s : State) : (s.drop).v = s.v := rfl
@[simp] theorem State.drop_i (s : State) : (s.drop).i = s.i := rfl
@[simp] theorem State.drop_pc (s : State) : (s.drop).pc = s.pc := rfl
@[simp] theorem State.drop_stack (s : State) : (s.drop).stack = s.stack := rfl
@[simp] theorem State.drop_sp (s : State) : (s.drop).sp = s.sp - 1 := rfl
@[simp] theorem State.drop_dt (s : State) : (s.drop).dt = s.dt := rfl
@[simp] theorem State.drop_st (s : State) : (s.drop).st = s.st := rfl
@[simp] theorem State.drop_keys (s : State) : (s.drop).keys = s.keys := rfl
@[simp] theorem State.drop_fb (s : State) : (s.drop).fb = s.fb := rfl
@[simp] theorem State.drop_dirty (s : State) : (s.drop).dirty = s.dirty := rfl
@[simp] theorem State.drop_run (s : State) : (s.drop).run = s.run := rfl
@[simp] theorem State.drop_acc (s : State) : (s.drop).acc = s.acc := rfl
@[simp] theorem State.drop_mem (s : State) : (s.drop).mem = s.mem := rfl
@[simp] theorem State.drop_draws (s : State) : (s.drop).draws = s.draws := rfl
@[simp] theorem State.drop_inputs (s : State) : (s.drop).inputs = s.inputs := rfl

/-! ### State.setFrame -/

@[simp] theorem State.setFrame_v (s : State) (f : Frame) : (s.setFrame f).v = s.v := rfl
@[simp] theorem State.setFrame_i (s : State) (f : Frame) : (s.setFrame f).i = s.i := rfl
@[simp] theorem State.setFrame_pc (s : State) (f : Frame) : (s.setFrame f).pc = s.pc := rfl
@[simp] theorem State.setFrame_stack (s : State) (f : Frame) : (s.setFrame f).stack = s.stack := rfl
@[simp] theorem State.setFrame_sp (s : State) (f : Frame) : (s.setFrame f).sp = s.sp := rfl
@[simp] theorem State.setFrame_dt (s : State) (f : Frame) : (s.setFrame f).dt = s.dt := rfl
@[simp] theorem State.setFrame_st (s : State) (f : Frame) : (s.setFrame f).st = s.st := rfl
@[simp] theorem State.setFrame_keys (s : State) (f : Frame) : (s.setFrame f).keys = s.keys := rfl
@[simp] theorem State.setFrame_fb (s : State) (f : Frame) : (s.setFrame f).fb = f := rfl
@[simp] theorem State.setFrame_dirty (s : State) (f : Frame) : (s.setFrame f).dirty = true := rfl
@[simp] theorem State.setFrame_run (s : State) (f : Frame) : (s.setFrame f).run = s.run := rfl
@[simp] theorem State.setFrame_acc (s : State) (f : Frame) : (s.setFrame f).acc = s.acc := rfl
@[simp] theorem State.setFrame_mem (s : State) (f : Frame) : (s.setFrame f).mem = s.mem := rfl
@[simp] theorem State.setFrame_draws (s : State) (f : Frame) : (s.setFrame f).draws = s.draws := rfl
@[simp] theorem State.setFrame_inputs (s : State) (f : Frame) : (s.setFrame f).inputs = s.inputs := rfl

/-! ### State.clean -/

@[simp] theorem State.clean_v (s : State) : (s.clean).v = s.v := rfl
@[simp] theorem State.clean_i (s : State) : (s.clean).i = s.i := rfl
@[simp] theorem State.clean_pc (s : State) : (s.clean).pc = s.pc := rfl
@[simp] theorem State.clean_stack (s : State) : (s.clean).stack = s.stack := rfl
@[simp] theorem State.clean_sp (s : State) : (s.clean).sp = s.sp := rfl
@[simp] theorem State.clean_dt (s : State) : (s.clean).dt = s.dt := rfl
@[simp] theorem State.clean_st (s : State) : (s.clean).st = s.st := rfl
@[simp] theorem State.clean_keys (s : State) : (s.clean).keys = s.keys := rfl
@[simp] theorem State.clean_fb (s : State) : (s.clean).fb = s.fb := rfl
@[simp] theorem State.clean_dirty (s : State) : (s.clean).dirty = false := rfl
@[simp] theorem State.clean_run (s : State) : (s.clean).run = s.run := rfl
@[simp] theorem State.clean_acc (s : State) : (s.clean).acc = s.acc := rfl
@[simp] theorem State.clean_mem (s : State) : (s.clean).mem = s.mem := rfl
@[simp] theorem State.clean_draws (s : State) : (s.clean).draws = s.draws := rfl
@[simp] theorem State.clean_inputs (s : State) : (s.clean).inputs = s.inputs := rfl

/-! ### State.setKeys -/

@[simp] theorem State.setKeys_v (s : State) (k : Keys) : (s.setKeys k).v = s.v := rfl
@[simp] theorem State.setKeys_i (s : State) (k : Keys) : (s.setKeys k).i = s.i := rfl
@[simp] theorem State.setKeys_pc (s : State) (k : Keys) : (s.setKeys k).pc = s.pc := rfl
@[simp] theorem State.setKeys_stack (s : State) (k : Keys) : (s.setKeys k).stack = s.stack := rfl
@[simp] theorem State.setKeys_sp (s : State) (k : Keys) : (s.setKeys k).sp = s.sp := rfl
@[simp] theorem State.setKeys_dt (s : State) (k : Keys) : (s.setKeys k).dt = s.dt := rfl
@[simp] theorem State.setKeys_st (s : State) (k : Keys) : (s.setKeys k).st = s.st := rfl
@[simp] theorem State.setKeys_keys (s : State) (k : Keys) : (s.setKeys k).keys = k := rfl
@[simp] theorem State.setKeys_fb (s : State) (k : Keys) : (s.setKeys k).fb = s.fb := rfl
@[simp] theorem State.setKeys_dirty (s : State) (k : Keys) : (s.setKeys k).dirty = s.dirty := rfl
@[simp] theorem State.setKeys_run (s : State) (k : Keys) : (s.setKeys k).run = s.run := rfl
@[simp] theorem State.setKeys_acc (s : State) (k : Keys) : (s.setKeys k).acc = s.acc := rfl
@[simp] theorem State.setKeys_mem (s : State) (k : Keys) : (s.setKeys k).mem = s.mem := rfl
@[simp] theorem State.setKeys_draws (s : State) (k : Keys) : (s.setKeys k).draws = s.draws := rfl
@[simp] theorem State.setKeys_inputs (s : State) (k : Keys) : (s.setKeys k).inputs = s.inputs := rfl

/-! ### State.setAcc -/

@[simp] theorem State.setAcc_v (s : State) (n : Nat) : (s.setAcc n).v = s.v := rfl
@[simp] theorem State.setAcc_i (s : State) (n : Nat) : (s.setAcc n).i = s.i := rfl
@[simp] theorem State.setAcc_pc (s : State) (n : Nat) : (s.setAcc n).pc = s.pc := rfl
@[simp] theorem State.setAcc_stack (s : State) (n : Nat) : (s.setAcc n).stack = s.stack := rfl
@[simp] theorem State.setAcc_sp (s : State) (n : Nat) : (s.setAcc n).sp = s.sp := rfl
@[simp] theorem State.setAcc_dt (s : State) (n : Nat) : (s.setAcc n).dt = s.dt := rfl
@[simp] theorem State.setAcc_st (s : State) (n : Nat) : (s.setAcc n).st = s.st := rfl
@[simp] theorem State.setAcc_keys (s : State) (n : Nat) : (s.setAcc n).keys = s.keys := rfl
@[simp] theorem State.setAcc_fb (s : State) (n : Nat) : (s.setAcc n).fb = s.fb := rfl
@[simp] theorem State.setAcc_dirty (s : State) (n : Nat) : (s.setAcc n).dirty = s.dirty := rfl
@[simp] theorem State.setAcc_run (s : State) (n : Nat) : (s.setAcc n).run = s.run := rfl
@[simp] theorem State.setAcc_acc (s : State) (n : Nat) : (s.setAcc n).acc = n := rfl
@[simp] theorem State.setAcc_mem (s : State) (n : Nat) : (s.setAcc n).mem = s.mem := rfl
@[simp] theorem State.setAcc_draws (s : State) (n : Nat) : (s.setAcc n).draws = s.draws := rfl
@[simp] theorem State.setAcc_inputs (s : State) (n : Nat) : (s.setAcc n).inputs = s.inputs := rfl

/-! ### State.setInputs -/

@[simp] theorem State.setInputs_v (s : State) (l : List Input) : (s.setInputs l).v = s.v := rfl
@[simp] theorem State.setInputs_i (s : State) (l : List Input) : (s.setInputs l).i = s.i := rfl
@[simp] theorem State.setInputs_pc (s : State) (l : List Input) : (s.setInputs l).pc = s.pc := rfl
@[simp] theorem State.setInputs_stack (s : State) (l : List Input) : (s.setInputs l).stack = s.stack := rfl
@[simp] theorem State.setInputs_sp (s : State) (l : List Input) : (s.setInputs l).sp = s.sp := rfl
@[simp] theorem State.setInputs_dt (s : State) (l : List Input) : (s.setInputs l).dt = s.dt := rfl
@[simp] theorem State.setInputs_st (s : State) (l : List Input) : (s.setInputs l).st = s.st := rfl
@[simp] theorem State.setInputs_keys (s : State) (l : List Input) : (s.setInputs l).keys = s.keys := rfl
@[simp] theorem State.setInputs_fb (s : State) (l : List Input) : (s.setInputs l).fb = s.fb := rfl
@[simp] theorem State.setInputs_dirty (s : State) (l : List Input) : (s.setInputs l).dirty = s.dirty := rfl
@[simp] theorem State.setInputs_run (s : State) (l : List Input) : (s.setInputs l).run = s.run := rfl
@[simp] theorem State.setInputs_acc (s : State) (l : List Input) : (s.setInputs l).acc = s.acc := rfl
@[simp] theorem State.setInputs_mem (s : State) (l : List Input) : (s.setInputs l).mem = s.mem := rfl
@[simp] theorem State.setInputs_draws (s : State) (l : List Input) : (s.setInputs l).draws = s.draws := rfl
@[simp] theorem State.setInputs_inputs (s : State) (l : List Input) : (s.setInputs l).inputs = l := rfl

/-! ### State.skipIf and State.setResult, which choose between updates -/

@[simp] theorem State.skipIf_v (s : State) (c : Bool) : (s.skipIf c).v = s.v := by cases c <;> rfl
@[simp] theorem State.skipIf_i (s : State) (c : Bool) : (s.skipIf c).i = s.i := by cases c <;> rfl
@[simp] theorem State.skipIf_pc (s : State) (c : Bool) : (s.skipIf c).pc = if c then s.pc + 4#16 else s.pc + 2#16 := by
  cases c <;> rfl
@[simp] theorem State.skipIf_stack (s : State) (c : Bool) : (s.skipIf c).stack = s.stack := by cases c <;> rfl
@[simp] theorem State.skipIf_sp (s : State) (c : Bool) : (s.skipIf c).sp = s.sp := by cases c <;> rfl
@[simp] theorem State.skipIf_dt (s : State) (c : Bool) : (s.skipIf c).dt = s.dt := by cases c <;> rfl
@[simp] theorem State.skipIf_st (s : State) (c : Bool) : (s.skipIf c).st = s.st := by cases c <;> rfl
@[simp] theorem State.skipIf_keys (s : State) (c : Bool) : (s.skipIf c).keys = s.keys := by cases c <;> rfl
@[simp] theorem State.skipIf_fb (s : State) (c : Bool) : (s.skipIf c).fb = s.fb := by cases c <;> rfl
@[simp] theorem State.skipIf_dirty (s : State) (c : Bool) : (s.skipIf c).dirty = s.dirty := by cases c <;> rfl
@[simp] theorem State.skipIf_run (s : State) (c : Bool) : (s.skipIf c).run = s.run := by cases c <;> rfl
@[simp] theorem State.skipIf_acc (s : State) (c : Bool) : (s.skipIf c).acc = s.acc := by cases c <;> rfl
@[simp] theorem State.skipIf_mem (s : State) (c : Bool) : (s.skipIf c).mem = s.mem := by cases c <;> rfl
@[simp] theorem State.skipIf_draws (s : State) (c : Bool) : (s.skipIf c).draws = s.draws := by cases c <;> rfl
@[simp] theorem State.skipIf_inputs (s : State) (c : Bool) : (s.skipIf c).inputs = s.inputs := by cases c <;> rfl

@[simp] theorem State.setResult_i (s : State) (x : Reg) (r : Byte) (c : Bool) : (s.setResult x r c).i = s.i := by
  unfold State.setResult; split <;> rfl
@[simp] theorem State.setResult_pc (s : State) (x : Reg) (r : Byte) (c : Bool) : (s.setResult x r c).pc = s.pc := by
  unfold State.setResult; split <;> rfl
@[simp] theorem State.setResult_stack (s : State) (x : Reg) (r : Byte) (c : Bool) : (s.setResult x r c).stack = s.stack := by
  unfold State.setResult; split <;> rfl
@[simp] theorem State.setResult_sp (s : State) (x : Reg) (r : Byte) (c : Bool) : (s.setResult x r c).sp = s.sp := by
  unfold State.setResult; split <;> rfl
@[simp] theorem State.setResult_dt (s : State) (x : Reg) (r : Byte) (c : Bool) : (s.setResult x r c).dt = s.dt := by
  unfold State.setResult; split <;> rfl
@[simp] theorem State.setResult_st (s : State) (x : Reg) (r : Byte) (c : Bool) : (s.setResult x r c).st = s.st := by
  unfold State.setResult; split <;> rfl
@[simp] theorem State.setResult_keys (s : State) (x : Reg) (r : Byte) (c : Bool) : (s.setResult x r c).keys = s.keys := by
  unfold State.setResult; split <;> rfl
@[simp] theorem State.setResult_fb (s : State) (x : Reg) (r : Byte) (c : Bool) : (s.setResult x r c).fb = s.fb := by
  unfold State.setResult; split <;> rfl
@[simp] theorem State.setResult_dirty (s : State) (x : Reg) (r : Byte) (c : Bool) : (s.setResult x r c).dirty = s.dirty := by
  unfold State.setResult; split <;> rfl
@[simp] theorem State.setResult_run (s : State) (x : Reg) (r : Byte) (c : Bool) : (s.setResult x r c).run = s.run := by
  unfold State.setResult; split <;> rfl
@[simp] theorem State.setResult_acc (s : State) (x : Reg) (r : Byte) (c : Bool) : (s.setResult x r c).acc = s.acc := by
  unfold State.setResult; split <;> rfl
@[simp] theorem State.setResult_mem (s : State) (x : Reg) (r : Byte) (c : Bool) : (s.setResult x r c).mem = s.mem := by
  unfold State.setResult; split <;> rfl
@[simp] theorem State.setResult_inputs (s : State) (x : Reg) (r : Byte) (c : Bool) : (s.setResult x r c).inputs = s.inputs := by
  unfold State.setResult; split <;> rfl

/-! ### V[x] of an updated state -/

@[simp] theorem State.setI_reg (s : State) (w : Word) (j : Reg) : (s.setI w).reg j = s.reg j := rfl
@[simp] theorem State.setDt_reg (s : State) (b : Byte) (j : Reg) : (s.setDt b).reg j = s.reg j := rfl
@[simp] theorem State.setSt_reg (s : State) (b : Byte) (j : Reg) : (s.setSt b).reg j = s.reg j := rfl
@[simp] theorem State.setMem_reg (s : State) (m : Mem) (j : Reg) : (s.setMem m).reg j = s.reg j := rfl
@[simp] theorem State.drew_reg (s : State) (j : Reg) : (s.drew).reg j = s.reg j := rfl
@[simp] theorem State.goto_reg (s : State) (t : Word) (j : Reg) : (s.goto t).reg j = s.reg j := rfl
@[simp] theorem State.seq_reg (s : State) (j : Reg) : (s.seq).reg j = s.reg j := rfl
@[simp] theorem State.skip_reg (s : State) (j : Reg) : (s.skip).reg j = s.reg j := rfl
@[simp] theorem State.halt_reg (s : State) (r : HaltReason) (j : Reg) : (s.halt r).reg j = s.reg j := rfl
@[simp] theorem State.push_reg (s : State) (t : Word) (j : Reg) : (s.push t).reg j = s.reg j := rfl
@[simp] theorem State.drop_reg (s : State) (j : Reg) : (s.drop).reg j = s.reg j := rfl
@[simp] theorem State.setFrame_reg (s : State) (f : Frame) (j : Reg) : (s.setFrame f).reg j = s.reg j := rfl
@[simp] theorem State.clean_reg (s : State) (j : Reg) : (s.clean).reg j = s.reg j := rfl
@[simp] theorem State.setKeys_reg (s : State) (k : Keys) (j : Reg) : (s.setKeys k).reg j = s.reg j := rfl
@[simp] theorem State.setAcc_reg (s : State) (n : Nat) (j : Reg) : (s.setAcc n).reg j = s.reg j := rfl
@[simp] theorem State.setInputs_reg (s : State) (l : List Input) (j : Reg) : (s.setInputs l).reg j = s.reg j := rfl
@[simp] theorem State.setRegs_reg (s : State) (v : Regs) (j : Reg) : (s.setRegs v).reg j = getReg v j := rfl
@[simp] theorem State.skipIf_reg (s : State) (c : Bool) (j : Reg) : (s.skipIf c).reg j = s.reg j := by cases c <;> rfl

/-- The result and the flag land in V[x] and VF when x is not VF (R161). -/
theorem State.setResult_of_ne (s : State) (x : Reg) (r : Byte) (c : Bool) (h : x ≠ regF) :
    s.setResult x r c = (s.setV x r).setV regF (flagByte c) := if_neg h

/-- With x = 0xF, VF gets a free value (R161). -/
theorem State.setResult_regF (s : State) (r : Byte) (c : Bool) :
    s.setResult regF r c = (s.setV regF (Config.drawByte s.draws)).drew := if_pos rfl

end Sys2Proof.Machine
end

