-- ==== Sys2Proof/Laws/Display.lean ====
section
/-! SUPPORT. The laws of the framebuffer: what toggling and the drawing loops leave in every pixel, and when they report
a collision. -/

namespace Sys2Proof.Machine

@[simp] theorem pixel_blank (r : Fin 32) (c : Fin 64) : pixel blankFrame r c = false := by simp [pixel, blankFrame]

/-- Toggling flips one pixel and no other. -/
theorem pixel_togglePixel (f : Frame) (r r' : Fin 32) (c c' : Fin 64) :
    pixel (togglePixel f r c) r' c' = if r' = r ∧ c' = c then !pixel f r c else pixel f r' c' := by
  unfold pixel togglePixel
  by_cases hr : r' = r
  · subst hr
    by_cases hc : c' = c
    · subst hc; simp
    · have : c.val ≠ c'.val := fun e => hc (Fin.ext e.symm)
      simp [hc, this]
  · have : r.val ≠ r'.val := fun e => hr (Fin.ext e.symm)
    simp [hr, this]

/-- One sprite bit: the pixel under a 1 bit flips, every other pixel stays. -/
theorem pixel_drawBit (lit : Bool) (row r : Fin 32) (col c : Fin 64) (p : Frame × Bool) :
    pixel (drawBit lit row col p).1 r c = true ↔ ¬ (pixel p.1 r c = true ↔ (lit = true ∧ r = row ∧ c = col)) := by
  cases lit
  · simp [drawBit]
  · by_cases h : r = row ∧ c = col
    · obtain ⟨rfl, rfl⟩ := h; simp [drawBit, pixel_togglePixel]
    · simp [drawBit, pixel_togglePixel, h]

/-- One sprite bit is a collision when it is 1 and the pixel was on (R214). -/
theorem hit_drawBit (lit : Bool) (row : Fin 32) (col : Fin 64) (p : Frame × Bool) :
    (drawBit lit row col p).2 = true ↔ p.2 = true ∨ (lit = true ∧ pixel p.1 row col = true) := by
  cases lit <;> simp [drawBit]

/-- Columns k and k' right of a start column differ while both are below 64. -/
theorem colIndex_inj {x0 k k' : Nat} (hk : k < 64) (hk' : k' < 64) (h : colIndex (x0 + k) = colIndex (x0 + k')) : k = k' := by
  have := congrArg Fin.val h; simp only [colIndex] at this; omega

/-- Rows j and j' below a start row differ while both are below 32. -/
theorem rowIndex_inj {y j j' : Nat} (hj : j < 32) (hj' : j' < 32) (h : rowIndex (y + j) = rowIndex (y + j')) : j = j' := by
  have := congrArg Fin.val h; simp only [rowIndex] at this; omega

/-- Two flips that never meet are one flip of either. -/
theorem flip_flip {P L M : Prop} (h : L → ¬ M) : (¬ (¬ (P ↔ L) ↔ M)) ↔ ¬ (P ↔ (L ∨ M)) := by
  by_cases hP : P <;> by_cases hL : L <;> by_cases hM : M <;> simp_all

/-- Where nothing flips, a pixel is as before. -/
theorem flip_none {P Q L : Prop} (h : Q ↔ ¬ (P ↔ L)) (hL : ¬ L) : Q ↔ P := by
  rw [h]; by_cases hP : P <;> simp [hP, hL]

/-- Bits ks of one sprite row, distinct and below 64: each pixel flips exactly under a 1 bit, and a collision is a 1 bit
on a pixel that was on before the row. -/
theorem drawBits_spec (x0 : Nat) (row : Fin 32) (b : Byte) (ks : List Nat) (hn : ks.Nodup) (hk : ∀ k ∈ ks, k < 64)
    (p : Frame × Bool) :
    let q := ks.foldl (fun q c => drawBit (spriteBit b c) row (colIndex (x0 + c)) q) p
    (∀ r c, pixel q.1 r c = true ↔
      ¬ (pixel p.1 r c = true ↔ (r = row ∧ ∃ k ∈ ks, spriteBit b k = true ∧ c = colIndex (x0 + k)))) ∧
    (q.2 = true ↔ p.2 = true ∨ ∃ k ∈ ks, spriteBit b k = true ∧ pixel p.1 row (colIndex (x0 + k)) = true) := by
  induction ks generalizing p with
  | nil => simp
  | cons k ks ih =>
    have ⟨hnk, hn'⟩ := List.nodup_cons.mp hn
    have hother : ∀ k' ∈ ks, colIndex (x0 + k') ≠ colIndex (x0 + k) := fun k' hm he =>
      hnk (colIndex_inj (hk k' (by simp [hm])) (hk k (by simp)) he ▸ hm)
    obtain ⟨ih1, ih2⟩ := ih hn' (fun k' hm => hk k' (by simp [hm])) (drawBit (spriteBit b k) row (colIndex (x0 + k)) p)
    refine ⟨fun r c => ?_, ?_⟩
    · rw [List.foldl_cons, ih1, pixel_drawBit]
      rw [flip_flip (by rintro ⟨-, -, rfl⟩ ⟨-, k', hm, -, he⟩; exact hother k' hm he.symm)]
      simp only [List.mem_cons, exists_eq_or_imp, and_or_left, and_left_comm (a := r = row)]
    · rw [List.foldl_cons, ih2, hit_drawBit]
      simp only [List.mem_cons, exists_eq_or_imp]
      have hsame : (∃ k' ∈ ks, spriteBit b k' = true ∧
            pixel (drawBit (spriteBit b k) row (colIndex (x0 + k)) p).1 row (colIndex (x0 + k')) = true) ↔
          ∃ k' ∈ ks, spriteBit b k' = true ∧ pixel p.1 row (colIndex (x0 + k')) = true := by
        refine exists_congr fun k' => and_congr_right fun hm => and_congr_right fun _ => ?_
        exact flip_none (pixel_drawBit _ _ _ _ _ _) (fun h => hother k' hm h.2.2)
      rw [hsame, or_assoc]

/-- One sprite row (R211, R213): each pixel flips exactly under a 1 bit, and a collision is a 1 bit on a pixel that was on. -/
theorem drawRow_spec (x0 : Nat) (row : Fin 32) (b : Byte) (p : Frame × Bool) :
    (∀ r c, pixel (drawRow x0 row b p).1 r c = true ↔
      ¬ (pixel p.1 r c = true ↔ (r = row ∧ ∃ k < 8, spriteBit b k = true ∧ c = colIndex (x0 + k)))) ∧
    ((drawRow x0 row b p).2 = true ↔
      p.2 = true ∨ ∃ k < 8, spriteBit b k = true ∧ pixel p.1 row (colIndex (x0 + k)) = true) := by
  have h := drawBits_spec x0 row b (List.range 8) List.nodup_range (fun k hk => by simp at hk; omega) p
  simp only [List.mem_range] at h
  exact h

/-- Everything the drawing loops do (R211 to R214), for at most 32 sprite rows: each pixel flips exactly when a 1 bit of
the sprite lands on it, and a collision is such a bit on a pixel that was on before the draw. -/
theorem drawRows_spec (x0 y : Nat) (bs : List Byte) (hlen : bs.length ≤ 32) (p : Frame × Bool) :
    (∀ r c, pixel (drawRows x0 y bs p).1 r c = true ↔
      ¬ (pixel p.1 r c = true ↔
        ∃ j k, ∃ h : j < bs.length, k < 8 ∧ spriteBit bs[j] k = true ∧ r = rowIndex (y + j) ∧ c = colIndex (x0 + k))) ∧
    ((drawRows x0 y bs p).2 = true ↔
      p.2 = true ∨ ∃ j k, ∃ h : j < bs.length, k < 8 ∧ spriteBit bs[j] k = true ∧
        pixel p.1 (rowIndex (y + j)) (colIndex (x0 + k)) = true) := by
  induction bs generalizing y p with
  | nil => simp [drawRows]
  | cons b bs ih =>
    simp only [List.length_cons] at hlen
    obtain ⟨r1, r2⟩ := drawRow_spec x0 (rowIndex y) b p
    obtain ⟨ih1, ih2⟩ := ih (y + 1) (by omega) (drawRow x0 (rowIndex y) b p)
    have split : ∀ Q : Nat → Nat → Byte → Prop,
        (∃ j k, ∃ h : j < (b :: bs).length, Q j k (b :: bs)[j]) ↔
          (∃ k, Q 0 k b) ∨ ∃ j k, ∃ h : j < bs.length, Q (j + 1) k bs[j] := by
      intro Q
      constructor
      · rintro ⟨j, k, h, hq⟩
        cases j with
        | zero => exact .inl ⟨k, hq⟩
        | succ j => exact .inr ⟨j, k, by simpa using h, hq⟩
      · rintro (⟨k, hq⟩ | ⟨j, k, h, hq⟩)
        · exact ⟨0, k, by simp, hq⟩
        · exact ⟨j + 1, k, by simpa using h, hq⟩
    have hassoc : ∀ j, y + 1 + j = y + (j + 1) := fun j => by omega
    have hrow : ∀ j < bs.length, rowIndex (y + (j + 1)) ≠ rowIndex y := by
      intro j hj he
      have : j + 1 = 0 := rowIndex_inj (y := y) (by omega) (by omega) he
      omega
    simp only [hassoc] at ih1 ih2
    refine ⟨fun r c => ?_, ?_⟩
    · rw [drawRows, ih1, r1, split (fun j k a => k < 8 ∧ spriteBit a k = true ∧ r = rowIndex (y + j) ∧ c = colIndex (x0 + k))]
      have hfirst : (∃ k, k < 8 ∧ spriteBit b k = true ∧ r = rowIndex (y + 0) ∧ c = colIndex (x0 + k)) ↔
          (r = rowIndex y ∧ ∃ k, k < 8 ∧ spriteBit b k = true ∧ c = colIndex (x0 + k)) := by
        constructor
        · rintro ⟨k, h1, h2, h3, h4⟩; exact ⟨h3, k, h1, h2, h4⟩
        · rintro ⟨h3, k, h1, h2, h4⟩; exact ⟨k, h1, h2, h3, h4⟩
      rw [hfirst, flip_flip]
      rintro ⟨rfl, -⟩ ⟨j, k, h, -, -, he, -⟩; exact hrow j h he.symm
    · rw [drawRows, ih2, r2,
        split (fun j k a => k < 8 ∧ spriteBit a k = true ∧ pixel p.1 (rowIndex (y + j)) (colIndex (x0 + k)) = true)]
      have hsame : (∃ j k, ∃ h : j < bs.length, k < 8 ∧ spriteBit bs[j] k = true ∧
            pixel (drawRow x0 (rowIndex y) b p).1 (rowIndex (y + (j + 1))) (colIndex (x0 + k)) = true) ↔
          ∃ j k, ∃ h : j < bs.length, k < 8 ∧ spriteBit bs[j] k = true ∧
            pixel p.1 (rowIndex (y + (j + 1))) (colIndex (x0 + k)) = true := by
        refine exists_congr fun j => exists_congr fun k => exists_congr fun h => and_congr_right fun _ => and_congr_right fun _ => ?_
        exact flip_none (r1 _ _) (fun e => hrow j h e.1)
      rw [hsame, or_assoc]
      rfl

end Sys2Proof.Machine
end

