-- ==== Sys2Proof/Laws/Memory.lean ====
section
/-! SUPPORT. The laws of memory: a read after a write, many-byte accesses, the canonical form, and what the checked
accesses can answer. -/

namespace Sys2Proof.Machine

/-- MEM_SIZE as a numeral (R8). -/
theorem memSize_eq : Config.memSize = 4096 := rfl

@[simp] theorem Mem.read_nil (a : Nat) : Mem.read [] a = unlisted a := rfl

@[simp] theorem Mem.read_cons (k : Nat) (b : Byte) (m : Mem) (a : Nat) :
    Mem.read ((k, b) :: m) a = if k = a then b else Mem.read m a := rfl

theorem Mem.erase_cons (a k : Nat) (b : Byte) (m : Mem) :
    Mem.erase a ((k, b) :: m) = if k = a then Mem.erase a m else (k, b) :: Mem.erase a m := by
  by_cases h : k = a <;> simp [Mem.erase, h]

/-- An erased address reads as an unlisted one; every other address is untouched. -/
theorem Mem.read_erase (m : Mem) (a c : Nat) :
    Mem.read (Mem.erase a m) c = if c = a then unlisted a else Mem.read m c := by
  induction m with
  | nil => by_cases h : c = a <;> simp [Mem.erase, h]
  | cons hd tl ih =>
    obtain ⟨k, b⟩ := hd
    rw [Mem.erase_cons]
    by_cases hk : k = a
    · subst hk
      rw [if_pos rfl, ih, Mem.read_cons]
      by_cases hc : c = k
      · simp [hc]
      · simp [hc, Ne.symm hc]
    · by_cases hkc : k = c
      · subst hkc; simp [hk]
      · simp [ih, hk, hkc]

/-- An inserted cell is read at its address when no other cell has it; every other address is untouched. -/
theorem Mem.read_insert (m : Mem) (a c : Nat) (b : Byte) (h : ∀ e ∈ m, e.1 ≠ a) :
    Mem.read (Mem.insert a b m) c = if c = a then b else Mem.read m c := by
  induction m with
  | nil => by_cases hc : a = c <;> simp [Mem.insert, hc, eq_comm]
  | cons hd tl ih =>
    obtain ⟨k, e⟩ := hd
    have hk : k ≠ a := h (k, e) (by simp)
    have ih := ih (fun e he => h e (by simp [he]))
    unfold Mem.insert
    split
    · by_cases hc : a = c <;> simp [hc, eq_comm]
    · by_cases hc : c = a
      · subst hc; simp [ih, hk]
      · by_cases hkc : k = c <;> simp [ih, hc, hkc]

theorem Mem.not_mem_erase (m : Mem) (a : Nat) : ∀ e ∈ Mem.erase a m, e.1 ≠ a := by
  intro e he; simpa using (List.mem_filter.mp he).2

/-- A byte that has been written is read back, and every other byte is untouched (R73). -/
theorem Mem.read_write (m : Mem) (a c : Nat) (b : Byte) :
    Mem.read (Mem.write m a b) c = if c = a then b else Mem.read m c := by
  unfold Mem.write
  split
  · next h => rw [Mem.read_erase]; split <;> simp_all
  · rw [Mem.read_insert _ _ _ _ (Mem.not_mem_erase m a), Mem.read_erase]; split <;> rfl

/-- Consecutive bytes that have been written are read back, and every byte outside them is untouched (R67). -/
theorem Mem.read_writeBytes (bs : List Byte) (m : Mem) (a c : Nat) :
    Mem.read (Mem.writeBytes m a bs) c =
      if h : a ≤ c ∧ c < a + bs.length then bs[c - a]'(by omega) else Mem.read m c := by
  induction bs generalizing m a with
  | nil => simp [Mem.writeBytes]
  | cons b bs ih =>
    rw [Mem.writeBytes, ih, Mem.read_write]
    by_cases hc : c = a
    · subst hc; simp
    · by_cases hin : a + 1 ≤ c ∧ c < a + 1 + bs.length
      · have h2 : a ≤ c ∧ c < a + (b :: bs).length := by simp only [List.length_cons]; omega
        rw [dif_pos hin, dif_pos h2]
        obtain ⟨d, rfl⟩ : ∃ d, c = a + 1 + d := ⟨c - (a + 1), by omega⟩
        simp only [Nat.add_sub_cancel_left, show a + 1 + d - a = d + 1 by omega, List.getElem_cons_succ]
      · have h2 : ¬ (a ≤ c ∧ c < a + (b :: bs).length) := by simp only [List.length_cons]; omega
        rw [dif_neg hin, dif_neg h2, if_neg hc]

@[simp] theorem Mem.readBytes_length (m : Mem) (a n : Nat) : (Mem.readBytes m a n).length = n := by simp [Mem.readBytes]

@[simp] theorem Mem.readBytes_getElem (m : Mem) (a n j : Nat) (h : j < (Mem.readBytes m a n).length) :
    (Mem.readBytes m a n)[j] = Mem.read m (a + j) := by simp [Mem.readBytes]

/-! ### The canonical form -/

theorem Mem.wf_erase {m : Mem} (h : Mem.wf m) (a : Nat) : Mem.wf (Mem.erase a m) := by
  refine ⟨?_, fun c hc => h.2 c (List.mem_filter.mp hc).1⟩
  exact List.Pairwise.sublist (List.Sublist.map _ List.filter_sublist) h.1

theorem Mem.mem_insert {m : Mem} {a : Nat} {b : Byte} {e : Host.Cell} (h : e ∈ Mem.insert a b m) :
    e = (a, b) ∨ e ∈ m := by
  induction m with
  | nil => simpa [Mem.insert] using h
  | cons hd tl ih =>
    obtain ⟨k, c⟩ := hd
    unfold Mem.insert at h
    split at h
    · simpa using h
    · rcases List.mem_cons.mp h with h | h
      · exact .inr (by simp [h])
      · rcases ih h with h | h
        · exact .inl h
        · exact .inr (by simp [h])

theorem Mem.wf_insert {m : Mem} (h : Mem.wf m) {a : Nat} {b : Byte} (ha : a < Config.memSize)
    (hb : b ≠ unlisted a) (hn : ∀ e ∈ m, e.1 ≠ a) : Mem.wf (Mem.insert a b m) := by
  refine ⟨?_, fun e he => ?_⟩
  · have hs := h.1
    clear h ha hb
    induction m with
    | nil => simp [Mem.insert]
    | cons hd tl ih =>
      obtain ⟨k, c⟩ := hd
      have hk : k ≠ a := hn (k, c) (by simp)
      simp only [List.map_cons, List.pairwise_cons] at hs
      unfold Mem.insert
      split
      · next hlt =>
        simp only [List.map_cons, List.pairwise_cons]
        refine ⟨fun x hx => ?_, hs⟩
        rcases List.mem_cons.mp hx with rfl | hx
        · exact hlt
        · exact Nat.lt_trans hlt (hs.1 x hx)
      · next hge =>
        simp only [List.map_cons, List.pairwise_cons]
        refine ⟨fun x hx => ?_, ih (fun e he => hn e (by simp [he])) hs.2⟩
        obtain ⟨e, he, rfl⟩ := List.mem_map.mp hx
        rcases Mem.mem_insert he with rfl | he
        · show k < a; omega
        · exact hs.1 _ (List.mem_map_of_mem he)
  · rcases Mem.mem_insert he with rfl | he
    · exact ⟨ha, hb⟩
    · exact h.2 e he

/-- A write inside MEM keeps the canonical form. -/
theorem Mem.wf_write {m : Mem} (h : Mem.wf m) {a : Nat} (ha : a < Config.memSize) (b : Byte) :
    Mem.wf (Mem.write m a b) := by
  unfold Mem.write
  split
  · exact Mem.wf_erase h a
  · next hb => exact Mem.wf_insert (Mem.wf_erase h a) ha hb (Mem.not_mem_erase m a)

/-- Consecutive writes inside MEM keep the canonical form. -/
theorem Mem.wf_writeBytes (bs : List Byte) {m : Mem} (h : Mem.wf m) {a : Nat} (ha : a + bs.length ≤ Config.memSize) :
    Mem.wf (Mem.writeBytes m a bs) := by
  induction bs generalizing m a with
  | nil => exact h
  | cons b bs ih =>
    simp only [List.length_cons] at ha
    exact ih (Mem.wf_write h (by omega) b) (by omega)

/-- The reset memory, which lists nothing, is in canonical form. -/
theorem Mem.wf_reset : Mem.wf State.reset.mem := ⟨.nil, fun c hc => by cases hc⟩

/-! ### The checked accesses (R66, R67, R68) -/

/-- An access that stays inside MEM, or touches no byte, raises nothing. -/
theorem boundsFault_none {pc : Word} {a n : Nat} (h : n = 0 ∨ a + n ≤ Config.memSize) : boundsFault pc a n = none :=
  if_neg (by omega)

/-- An access that leaves MEM raises AddressFault with the first address outside it. -/
theorem boundsFault_some {pc : Word} {a n : Nat} (h : 0 < n) (hn : Config.memSize < a + n) :
    boundsFault pc a n = some (.addressFault pc (max a Config.memSize)) := if_pos ⟨h, hn⟩

/-- Everything a checked write can answer. -/
theorem memWrite_cases (s : State) (a : Nat) (bs : List Byte) :
    ((bs = [] ∨ a + bs.length ≤ Config.memSize) ∧ memWrite s a bs = .ok (Mem.writeBytes s.mem a bs)) ∨
    (bs ≠ [] ∧ Config.memSize < a + bs.length ∧
      memWrite s a bs = .error (.addressFault s.pc (max a Config.memSize))) := by
  by_cases h : 0 < bs.length ∧ Config.memSize < a + bs.length
  · exact .inr ⟨List.ne_nil_of_length_pos h.1, h.2, by rw [memWrite, boundsFault_some h.1 h.2]⟩
  · refine .inl ⟨?_, by rw [memWrite, boundsFault_none (by omega)]⟩
    by_cases hb : bs = []
    · exact .inl hb
    · have := List.length_pos_iff.mpr hb; exact .inr (by omega)

/-- A checked write keeps the canonical form. -/
theorem memWrite_wf {s : State} {a : Nat} {bs : List Byte} {m : Mem} (h : Mem.wf s.mem)
    (hm : memWrite s a bs = .ok m) : Mem.wf m := by
  rcases memWrite_cases s a bs with ⟨hb, he⟩ | ⟨-, -, he⟩
  · rw [he] at hm; cases hm
    rcases hb with rfl | hb
    · exact h
    · exact Mem.wf_writeBytes bs h hb
  · rw [he] at hm; cases hm

/-- Everything a checked read can answer. -/
theorem memRead_cases (s : State) (a n : Nat) :
    ((n = 0 ∨ a + n ≤ Config.memSize) ∧ memRead s a n = .ok (Mem.readBytes s.mem a n)) ∨
    (0 < n ∧ Config.memSize < a + n ∧ memRead s a n = .error (.addressFault s.pc (max a Config.memSize))) := by
  by_cases h : 0 < n ∧ Config.memSize < a + n
  · exact .inr ⟨h.1, h.2, by rw [memRead, boundsFault_some h.1 h.2]⟩
  · exact .inl ⟨by omega, by rw [memRead, boundsFault_none (by omega)]⟩

end Sys2Proof.Machine
end

