-- ==== Sys2Proof/Laws/PerInstr.lean ====
section
/-! SUPPORT. Per-instruction statements about the syntax.  The family EncodingFits: the word the encoder writes for an
instruction, from the formats of R92, matches the mask and the fixed bits that the opcode map of R100 gives its row. -/

namespace Sys2Proof.Laws.EncodingFits

/-- The encoded word matches its row of the opcode map (R92, R100). -/
def Statement (i : Instr) : Prop := (rowOf i).holds (encode i) = true

theorem append_and {m n : Nat} (a c : BitVec m) (b d : BitVec n) : (a ++ b) &&& (c ++ d) = (a &&& c) ++ (b &&& d) :=
  BitVec.and_append

/-- The mask of format NNN keeps opClass. -/
theorem fmtNNN_mask (o : Nibble) (a : Addr12) : fmtNNN o a &&& 0xF000#16 = fmtNNN o 0#12 := by
  have h : fmtNNN o a &&& 0xF000#16 = ((o &&& 0xF#4) ++ (a &&& 0#12) : BitVec (4 + 12)) := append_and o 0xF#4 a 0#12
  rw [h, show (0xF#4 : Nibble) = BitVec.allOnes 4 from rfl, BitVec.and_allOnes, BitVec.and_zero]; rfl

/-- The mask of format XKK keeps opClass. -/
theorem fmtXKK_mask (o : Nibble) (x : Reg) (kk : Byte) : fmtXKK o x kk &&& 0xF000#16 = fmtXKK o 0#4 0#8 := by
  have h : fmtXKK o x kk &&& 0xF000#16 = (((o ++ x) &&& (0xF#4 ++ 0#4)) ++ (kk &&& 0#8) : BitVec (4 + 4 + 8)) :=
    append_and (o ++ x) (0xF#4 ++ 0#4) kk 0#8
  rw [h, append_and, show (0xF#4 : Nibble) = BitVec.allOnes 4 from rfl, BitVec.and_allOnes, BitVec.and_zero, BitVec.and_zero]; rfl

/-- The mask of format XSS keeps opClass and the sub-function. -/
theorem fmtXSS_mask (o : Nibble) (x : Reg) (f : Byte) : fmtXKK o x f &&& 0xF0FF#16 = fmtXKK o 0#4 f := by
  have h : fmtXKK o x f &&& 0xF0FF#16 = (((o ++ x) &&& (0xF#4 ++ 0#4)) ++ (f &&& 0xFF#8) : BitVec (4 + 4 + 8)) :=
    append_and (o ++ x) (0xF#4 ++ 0#4) f 0xFF#8
  rw [h, append_and, show (0xF#4 : Nibble) = BitVec.allOnes 4 from rfl, show (0xFF#8 : Byte) = BitVec.allOnes 8 from rfl,
    BitVec.and_allOnes, BitVec.and_allOnes, BitVec.and_zero]; rfl

/-- The mask of format XYN keeps opClass. -/
theorem fmtXYN_mask (o : Nibble) (x y : Reg) (n : Nibble) : fmtXYN o x y n &&& 0xF000#16 = fmtXYN o 0#4 0#4 0#4 := by
  have h : fmtXYN o x y n &&& 0xF000#16 =
      (((o ++ x ++ y) &&& (0xF#4 ++ 0#4 ++ 0#4)) ++ (n &&& 0#4) : BitVec (4 + 4 + 4 + 4)) :=
    append_and (o ++ x ++ y) (0xF#4 ++ 0#4 ++ 0#4) n 0#4
  rw [h, append_and, append_and, show (0xF#4 : Nibble) = BitVec.allOnes 4 from rfl, BitVec.and_allOnes,
    BitVec.and_zero, BitVec.and_zero, BitVec.and_zero]; rfl

/-- The mask of format XYS keeps opClass and the sub-function. -/
theorem fmtXYS_mask (o : Nibble) (x y : Reg) (f : Nibble) : fmtXYN o x y f &&& 0xF00F#16 = fmtXYN o 0#4 0#4 f := by
  have h : fmtXYN o x y f &&& 0xF00F#16 =
      (((o ++ x ++ y) &&& (0xF#4 ++ 0#4 ++ 0#4)) ++ (f &&& 0xF#4) : BitVec (4 + 4 + 4 + 4)) :=
    append_and (o ++ x ++ y) (0xF#4 ++ 0#4 ++ 0#4) f 0xF#4
  rw [h, append_and, append_and, show (0xF#4 : Nibble) = BitVec.allOnes 4 from rfl, BitVec.and_allOnes,
    BitVec.and_allOnes, BitVec.and_zero, BitVec.and_zero]; rfl

/-- A row holds of a word when the mask leaves exactly the row's fixed bits. -/
theorem holds_of_mask {i : Instr} {k : Word} (h : encode i &&& (rowOf i).mask = k) (hk : k = (rowOf i).bits) : Statement i := by
  subst hk; exact beq_iff_eq.mpr h

theorem cls : Statement (.cls) := by unfold Statement; decide
theorem ret : Statement (.ret) := by unfold Statement; decide
theorem jp (nnn : Addr12) : Statement (.jp nnn) := holds_of_mask (fmtNNN_mask _ _) rfl
theorem call (nnn : Addr12) : Statement (.call nnn) := holds_of_mask (fmtNNN_mask _ _) rfl
theorem seKk (x : Reg) (kk : Byte) : Statement (.seKk x kk) := holds_of_mask (fmtXKK_mask _ _ _) rfl
theorem sneKk (x : Reg) (kk : Byte) : Statement (.sneKk x kk) := holds_of_mask (fmtXKK_mask _ _ _) rfl
theorem seXy (x y : Reg) : Statement (.seXy x y) := holds_of_mask (fmtXYS_mask _ _ _ _) rfl
theorem ldKk (x : Reg) (kk : Byte) : Statement (.ldKk x kk) := holds_of_mask (fmtXKK_mask _ _ _) rfl
theorem addKk (x : Reg) (kk : Byte) : Statement (.addKk x kk) := holds_of_mask (fmtXKK_mask _ _ _) rfl
theorem ldXy (x y : Reg) : Statement (.ldXy x y) := holds_of_mask (fmtXYS_mask _ _ _ _) rfl
theorem orXy (x y : Reg) : Statement (.orXy x y) := holds_of_mask (fmtXYS_mask _ _ _ _) rfl
theorem andXy (x y : Reg) : Statement (.andXy x y) := holds_of_mask (fmtXYS_mask _ _ _ _) rfl
theorem xorXy (x y : Reg) : Statement (.xorXy x y) := holds_of_mask (fmtXYS_mask _ _ _ _) rfl
theorem addXy (x y : Reg) : Statement (.addXy x y) := holds_of_mask (fmtXYS_mask _ _ _ _) rfl
theorem subXy (x y : Reg) : Statement (.subXy x y) := holds_of_mask (fmtXYS_mask _ _ _ _) rfl
theorem shrX (x y : Reg) : Statement (.shrX x y) := holds_of_mask (fmtXYS_mask _ _ _ _) rfl
theorem subnXy (x y : Reg) : Statement (.subnXy x y) := holds_of_mask (fmtXYS_mask _ _ _ _) rfl
theorem shlX (x y : Reg) : Statement (.shlX x y) := holds_of_mask (fmtXYS_mask _ _ _ _) rfl
theorem sneXy (x y : Reg) : Statement (.sneXy x y) := holds_of_mask (fmtXYS_mask _ _ _ _) rfl
theorem ldI (nnn : Addr12) : Statement (.ldI nnn) := holds_of_mask (fmtNNN_mask _ _) rfl
theorem jpV0 (nnn : Addr12) : Statement (.jpV0 nnn) := holds_of_mask (fmtNNN_mask _ _) rfl
theorem rnd (x : Reg) (kk : Byte) : Statement (.rnd x kk) := holds_of_mask (fmtXKK_mask _ _ _) rfl
theorem drw (x y : Reg) (n : Nibble) : Statement (.drw x y n) := holds_of_mask (fmtXYN_mask _ _ _ _) rfl
theorem skp (x : Reg) : Statement (.skp x) := holds_of_mask (fmtXSS_mask _ _ _) rfl
theorem sknp (x : Reg) : Statement (.sknp x) := holds_of_mask (fmtXSS_mask _ _ _) rfl
theorem ldXDt (x : Reg) : Statement (.ldXDt x) := holds_of_mask (fmtXSS_mask _ _ _) rfl
theorem ldXK (x : Reg) : Statement (.ldXK x) := holds_of_mask (fmtXSS_mask _ _ _) rfl
theorem ldDtX (x : Reg) : Statement (.ldDtX x) := holds_of_mask (fmtXSS_mask _ _ _) rfl
theorem ldStX (x : Reg) : Statement (.ldStX x) := holds_of_mask (fmtXSS_mask _ _ _) rfl
theorem addIX (x : Reg) : Statement (.addIX x) := holds_of_mask (fmtXSS_mask _ _ _) rfl
theorem ldF (x : Reg) : Statement (.ldF x) := holds_of_mask (fmtXSS_mask _ _ _) rfl
theorem ldB (x : Reg) : Statement (.ldB x) := holds_of_mask (fmtXSS_mask _ _ _) rfl
theorem ldMemX (x : Reg) : Statement (.ldMemX x) := holds_of_mask (fmtXSS_mask _ _ _) rfl
theorem ldXMem (x : Reg) : Statement (.ldXMem x) := holds_of_mask (fmtXSS_mask _ _ _) rfl

end Sys2Proof.Laws.EncodingFits
end

