-- ==== Sys2Proof/Laws/Regs.lean ====
section
/-! SUPPORT. The laws of the register file and of the call stack. -/

namespace Sys2Proof.Machine

/-- A register reads what was last written to it; every other register is untouched. -/
theorem getReg_setReg (v : Regs) (x j : Reg) (b : Byte) : getReg (setReg v x b) j = if j = x then b else getReg v j := by
  unfold getReg setReg
  rw [Vector.getElem_set]
  by_cases h : j = x
  · subst h; simp
  · have : x.toNat ≠ j.toNat := fun e => h (BitVec.eq_of_toNat_eq e.symm)
    simp [this, h]

@[simp] theorem State.reg_setV (s : State) (x j : Reg) (b : Byte) :
    (s.setV x b).reg j = if j = x then b else s.reg j := getReg_setReg s.v x j b

/-- What V[j] holds after a result and its flag were written, for x other than 0xF (R161). -/
theorem State.reg_setResult (s : State) (x j : Reg) (r : Byte) (c : Bool) (h : x ≠ regF) :
    (s.setResult x r c).reg j = if j = regF then flagByte c else if j = x then r else s.reg j := by
  rw [State.setResult_of_ne s x r c h]; simp

/-- With x = 0xF only VF is written (R161). -/
theorem State.reg_setResult_regF (s : State) (j : Reg) (r : Byte) (c : Bool) :
    (s.setResult regF r c).reg j = if j = regF then Config.drawByte s.draws else s.reg j := by
  rw [State.setResult_regF]; exact State.reg_setV s regF j _

/-- Whatever x is, a register other than V[x] and VF is untouched (R161). -/
theorem State.reg_setResult_other (s : State) (x j : Reg) (r : Byte) (c : Bool) (hx : j ≠ x) (hf : j ≠ regF) :
    (s.setResult x r c).reg j = s.reg j := by
  by_cases h : x = regF
  · subst h; rw [State.reg_setResult_regF, if_neg hf]
  · rw [State.reg_setResult s x j r c h, if_neg hf, if_neg hx]

@[simp] theorem regsUpTo_length (v : Regs) (x : Reg) : (regsUpTo v x).length = x.toNat + 1 := by
  have := reg_lt x; simp [regsUpTo]; omega

/-- Element j of the registers V0 to Vx is V[j]. -/
theorem regsUpTo_getElem (v : Regs) (x j : Reg) (h : j.toNat < (regsUpTo v x).length) :
    (regsUpTo v x)[j.toNat] = getReg v j := by simp [regsUpTo, getReg]

/-- Registers loaded from a list, from register k on: register j holds its byte of the list, or what it held. -/
theorem getReg_loadRegs (bs : List Byte) (v : Regs) (k : Nat) (j : Reg) :
    getReg (loadRegs v k bs) j =
      if h : k ≤ j.toNat ∧ j.toNat < k + bs.length then bs[j.toNat - k]'(by omega) else getReg v j := by
  induction bs generalizing v k with
  | nil => simp [loadRegs]
  | cons b bs ih =>
    rw [loadRegs, ih]
    have hj := reg_lt j
    by_cases hk : j.toNat = k
    · subst hk; simp [getReg]
    · by_cases hin : k + 1 ≤ j.toNat ∧ j.toNat < k + 1 + bs.length
      · have h2 : k ≤ j.toNat ∧ j.toNat < k + (b :: bs).length := by simp only [List.length_cons]; omega
        rw [dif_pos hin, dif_pos h2]
        simp only [show j.toNat - k = j.toNat - (k + 1) + 1 by omega, List.getElem_cons_succ]
      · have h2 : ¬ (k ≤ j.toNat ∧ j.toNat < k + (b :: bs).length) := by simp only [List.length_cons]; omega
        rw [dif_neg hin, dif_neg h2]
        simp [getReg, Ne.symm hk]

/-! ### The call stack -/

/-- A stack entry reads what was last written to it; every other entry is untouched (R27). -/
theorem stackGet_stackSet (l : List Word) (j k : Nat) (t : Word) :
    stackGet (stackSet l j t) k = if k = j then t else stackGet l k := by
  unfold stackGet stackSet
  simp only [List.getD_eq_getElem?_getD]
  split
  · next h =>
    rw [List.getElem?_set]
    by_cases hk : k = j
    · subst hk; simp [h]
    · simp [hk, Ne.symm hk]
  · next h =>
    by_cases hk : k = j
    · subst hk
      have hlen : (l ++ List.replicate (k - l.length) 0x0000#16).length = k := by simp; omega
      rw [List.getElem?_append_right (by omega), hlen]
      simp
    · rw [if_neg hk]
      by_cases hl : k < l.length
      · rw [List.append_assoc, List.getElem?_append_left hl]
      · rw [List.append_assoc, List.getElem?_append_right (by omega), List.getElem?_eq_none (Nat.le_of_not_lt hl)]
        by_cases hm : k < j
        · rw [List.getElem?_append_left (by simp; omega)]; simp [List.getElem?_replicate]
          split <;> rfl
        · rw [List.getElem?_append_right (by simp; omega), List.getElem?_eq_none (by simp; omega)]

/-- Writing an entry below a bound keeps the number of entries below it. -/
theorem stackSet_length_le (l : List Word) (j d : Nat) (t : Word) (hj : j < d) (hl : l.length ≤ d) :
    (stackSet l j t).length ≤ d := by
  unfold stackSet; split <;> simp <;> omega

/-- Every entry after a write is the written word, an old entry, or 0x0000. -/
theorem mem_stackSet {l : List Word} {j : Nat} {t w : Word} (h : w ∈ stackSet l j t) : w = t ∨ w ∈ l ∨ w = 0x0000#16 := by
  unfold stackSet at h
  split at h
  · rcases List.mem_or_eq_of_mem_set h with h | h
    · exact .inr (.inl h)
    · exact .inl h
  · simp only [List.mem_append, List.mem_replicate, List.mem_singleton] at h
    rcases h with (h | ⟨-, h⟩) | h
    · exact .inr (.inl h)
    · exact .inr (.inr h)
    · exact .inl h

/-- An entry that is read is one of the list's or 0x0000. -/
theorem stackGet_mem (l : List Word) (j : Nat) : stackGet l j ∈ l ∨ stackGet l j = 0x0000#16 := by
  unfold stackGet
  by_cases h : j < l.length
  · exact .inl (by rw [List.getD_eq_getElem _ _ h]; exact List.getElem_mem h)
  · exact .inr (List.getD_eq_default _ _ (Nat.le_of_not_lt h))

/-- A pop after a push reads the pushed word (R142). -/
@[simp] theorem State.top_push (s : State) (t : Word) : (s.push t).top = t := by
  simp [State.top, stackGet_stackSet]

/-! ### The keypad -/

/-- A key is in the pressed set exactly when it is a key and it is down (R222). -/
theorem mem_pressedKeys (k : Keys) (j : Nat) : j ∈ pressedKeys k ↔ ∃ h : j < 16, k[j] = true := by
  simp only [pressedKeys, List.mem_filter, List.mem_range]
  constructor
  · rintro ⟨h, hd⟩; exact ⟨h, by simpa [h] using hd⟩
  · rintro ⟨h, hd⟩; exact ⟨h, by simpa [h] using hd⟩

/-- The key that the environment chooses is one of those it is offered (R222, decision D15). -/
theorem drawKey_mem (n k : Nat) (ks : List Nat) : drawKey n (k :: ks) ∈ k :: ks := by
  induction ks generalizing k with
  | nil => simp [drawKey]
  | cons j ks ih =>
    unfold drawKey
    split
    · simp
    · exact List.mem_cons_of_mem _ (ih j)

end Sys2Proof.Machine
end

