-- ==== Sys2Proof/Laws/Step.lean ====
section
/-! SUPPORT. What each shared operation of the cycle can answer: the stores and key skips, fetch, the instruction step,
the environment events, the paced step, and the step itself. -/

namespace Sys2Proof.Machine

/-! ### Shared operations of the instructions -/

/-- Everything a store at I can answer (R193). -/
theorem storeAtI_cases (bs : List Byte) (s : State) :
    ((bs = [] ∨ s.i.toNat + bs.length ≤ Config.memSize) ∧
      storeAtI bs s = .next (s.setMem (Mem.writeBytes s.mem s.i.toNat bs)).seq) ∨
    (bs ≠ [] ∧ Config.memSize < s.i.toNat + bs.length ∧
      storeAtI bs s = .next (s.halt (.addressFault s.pc (max s.i.toNat Config.memSize)))) := by
  unfold storeAtI State.addrI
  rcases memWrite_cases s s.i.toNat bs with ⟨h, he⟩ | ⟨h, hl, he⟩ <;> rw [he]
  · exact .inl ⟨h, rfl⟩
  · exact .inr ⟨h, hl, rfl⟩

/-- Everything a load from I can answer (R196). -/
theorem execLdXMem_cases (x : Reg) (s : State) :
    (s.i.toNat + (x.toNat + 1) ≤ Config.memSize ∧
      execLdXMem x s = .next (s.setRegs (loadRegs s.v 0 (Mem.readBytes s.mem s.i.toNat (x.toNat + 1)))).seq) ∨
    (Config.memSize < s.i.toNat + (x.toNat + 1) ∧
      execLdXMem x s = .next (s.halt (.addressFault s.pc (max s.i.toNat Config.memSize)))) := by
  unfold execLdXMem State.addrI
  rcases memRead_cases s s.i.toNat (x.toNat + 1) with ⟨h, he⟩ | ⟨_, hl, he⟩ <;> rw [he]
  · exact .inl ⟨by omega, rfl⟩
  · exact .inr ⟨hl, rfl⟩

/-- The frame and the collision of a draw of V[x], V[y], n (R211). -/
def drawn (x y : Reg) (n : Nibble) (s : State) : Frame × Bool :=
  drawRows ((s.reg x).toNat % 64) ((s.reg y).toNat % 32) (Mem.readBytes s.mem s.i.toNat n.toNat) (s.fb, false)

/-- Everything a draw can answer (R211). -/
theorem execDrw_cases (x y : Reg) (n : Nibble) (s : State) :
    ((n.toNat = 0 ∨ s.i.toNat + n.toNat ≤ Config.memSize) ∧
      execDrw x y n s = .next ((s.setFrame (drawn x y n s).1).setV regF (flagByte (drawn x y n s).2)).seq) ∨
    (0 < n.toNat ∧ Config.memSize < s.i.toNat + n.toNat ∧
      execDrw x y n s = .next (s.halt (.addressFault s.pc (max s.i.toNat Config.memSize)))) := by
  unfold execDrw State.addrI
  rcases memRead_cases s s.i.toNat n.toNat with ⟨h, he⟩ | ⟨h, hl, he⟩ <;> rw [he]
  · exact .inl ⟨h, rfl⟩
  · exact .inr ⟨h, hl, rfl⟩

/-- Everything a key skip can answer (R220, R221, R223). -/
theorem skipByKey_cases (x : Reg) (d : Bool) (s : State) :
    (∃ h : (s.reg x).toNat < 16, skipByKey x d s = .next (s.skipIf (s.keys[(s.reg x).toNat] == d))) ∨
    (16 ≤ (s.reg x).toNat ∧ skipByKey x d s = .next (s.halt (.keyIndexFault s.pc (s.reg x)))) := by
  unfold skipByKey
  by_cases h : (s.reg x).toNat < 16
  · exact .inl ⟨h, by rw [dif_pos h]⟩
  · exact .inr ⟨by omega, by rw [dif_neg h]; rfl⟩

/-! ### Fetch and the instruction step -/

/-- Everything the fetch can answer (R121). -/
theorem fetch_cases (s : State) :
    (s.pc.toNat + 1 < Config.memSize ∧
      fetch s = .ok (wordOfBytes (Mem.read s.mem s.pc.toNat) (Mem.read s.mem (s.pc.toNat + 1)))) ∨
    (Config.memSize ≤ s.pc.toNat + 1 ∧ fetch s = .error (.addressFault s.pc (max s.pc.toNat Config.memSize))) := by
  unfold fetch
  by_cases h : s.pc.toNat + 1 < Config.memSize
  · exact .inl ⟨h, by rw [boundsFault_none (by omega)]⟩
  · exact .inr ⟨by omega, by rw [boundsFault_some (by omega) (by omega)]⟩

/-- Everything an instruction step can answer (R128): an execution, or a fetch or decode fault that only halts. -/
theorem instrStep_cases (s : State) :
    (∃ i, s.pc.toNat + 1 < Config.memSize ∧
      decode (wordOfBytes (Mem.read s.mem s.pc.toNat) (Mem.read s.mem (s.pc.toNat + 1))) = some i ∧
      instrStep s = exec i s) ∨
    (s.pc.toNat + 1 < Config.memSize ∧
      decode (wordOfBytes (Mem.read s.mem s.pc.toNat) (Mem.read s.mem (s.pc.toNat + 1))) = none ∧
      instrStep s = .next (s.halt (.decodeFault s.pc
        (wordOfBytes (Mem.read s.mem s.pc.toNat) (Mem.read s.mem (s.pc.toNat + 1)))))) ∨
    (Config.memSize ≤ s.pc.toNat + 1 ∧
      instrStep s = .next (s.halt (.addressFault s.pc (max s.pc.toNat Config.memSize)))) := by
  unfold instrStep
  rcases fetch_cases s with ⟨hp, he⟩ | ⟨hp, he⟩ <;> rw [he]
  · simp only
    cases hd : decode (wordOfBytes (Mem.read s.mem s.pc.toNat) (Mem.read s.mem (s.pc.toNat + 1))) with
    | some i => exact .inl ⟨i, hp, rfl, rfl⟩
    | none => exact .inr (.inl ⟨hp, rfl, rfl⟩)
  · exact .inr (.inr ⟨hp, rfl⟩)

/-! ### Environment events -/

theorem whenRunning_running {s t : State} (h : s.run = .running) : whenRunning s t = t := by simp [whenRunning, h]

theorem whenRunning_halted {s t : State} {r : HaltReason} (h : s.run = .halted r) : whenRunning s t = s := by
  simp [whenRunning, h]

/-- A timer counts down by one and stops at 0 (R256). -/
theorem timerDown_toNat (b : Byte) : (timerDown b).toNat = b.toNat - 1 := by
  unfold timerDown; split
  · bv_omega
  · simp; omega

/-- A tick of a Running block: both timers count down and DIRTY is clear (R256, R257). -/
theorem tick_running {s : State} (h : s.run = .running) :
    tick s = { s with dt := timerDown s.dt, st := timerDown s.st, dirty := false } := by
  rw [tick, whenRunning_running h, present]
  cases hd : s.dirty <;> simp [countDown, State.setDt, State.setSt, State.clean, hd]

/-- What a present hands to the Display Sink (R257). -/
theorem present_snd (s : State) : (present s).2 = if s.dirty then some s.fb else none := by unfold present; split <;> rfl

/-- What a tick of a Running block hands to the Display Sink (R257). -/
theorem tickFrame_running {s : State} (h : s.run = .running) : tickFrame s = if s.dirty then some s.fb else none := by
  rw [tickFrame, h]; exact present_snd (countDown s)

/-- When a tick is due, in units of 1/(60*c) seconds (R263). -/
theorem tickDue_iff (c acc : Nat) : tickDue c acc = true ↔ c < acc + 60 := decide_eq_true_iff

/-- The accounting after an instruction that left the block Running (R261). -/
theorem account_running {c : Nat} {s : State} (h : s.run = .running) :
    account c s =
      if tickDue c s.acc then
        { s with acc := s.acc + 60 - c, dt := timerDown s.dt, st := timerDown s.st, dirty := false }
      else { s with acc := s.acc + 60 } := by
  rw [account, whenRunning_running h]
  split
  · rw [tick_running (by simpa using h)]; rfl
  · rfl

/-- A block that has halted does no accounting (R261). -/
theorem account_halted {c : Nat} {s : State} {r : HaltReason} (h : s.run = .halted r) : account c s = s := by
  rw [account, whenRunning_halted h]

/-- Everything a tick inside a step can be: that of tick_in, or the one due after the instruction of a paced step (R256, R261). -/
theorem tickedFrom_cases {s u : State} (h : tickedFrom s = some u) :
    s.run = .running ∧
      ((∃ rest, s.inputs = .tickIn :: rest ∧ u = s.setInputs rest) ∨
       (∃ rest, s.inputs = .pacedIn :: rest ∧ instrStep (s.setInputs rest) = .next u ∧ u.run = .running ∧
         tickDue Config.clockHz u.acc = true)) := by
  unfold tickedFrom at h
  split at h
  · rename_i rest hr hi; cases h; exact ⟨hr, .inl ⟨rest, hi, rfl⟩⟩
  · rename_i rest hr hi
    split at h
    · rename_i w hw
      split at h
      · rename_i hd; cases h; exact ⟨hr, .inr ⟨rest, hi, hw, hd.1, hd.2⟩⟩
      · cases h
    · cases h
  · cases h

/-- The tick of tick_in (R256). -/
theorem tickedFrom_tickIn {s : State} {rest : List Input} (h : s.run = .running) (hi : s.inputs = .tickIn :: rest) :
    tickedFrom s = some (s.setInputs rest) := by simp [tickedFrom, h, hi]

/-- The tick of a paced step, if its accounting makes one due (R261). -/
theorem tickedFrom_pacedIn {s u : State} {rest : List Input} (h : s.run = .running) (hi : s.inputs = .pacedIn :: rest)
    (hu : instrStep (s.setInputs rest) = .next u) :
    tickedFrom s = if u.run = .running ∧ tickDue Config.clockHz u.acc = true then some u else none := by
  simp [tickedFrom, h, hi, hu]

/-- What a step hands to the Display Sink, from the state its tick is taken in (R257). -/
theorem stepPresents_of_ticked {s u : State} (h : tickedFrom s = some u) (hr : u.run = .running) :
    stepPresents s = if u.dirty then some u.fb else none := by
  rw [stepPresents, h, Option.bind_some, tickFrame_running hr]

theorem stepPresents_of_not_ticked {s : State} (h : tickedFrom s = none) : stepPresents s = none := by
  rw [stepPresents, h, Option.bind_none]

/-! ### The step -/

/-- A Halted block has no step (R127). -/
theorem step_halted {s : State} {r : HaltReason} (h : s.run = .halted r) : step s = .fault (.halted r) := by simp [step, h]

/-- A Running block takes its next port event (R250, R251). -/
theorem step_event {s : State} {e : Input} {rest : List Input} (h : s.run = .running) (hi : s.inputs = e :: rest) :
    step s = perform e (s.setInputs rest) := by simp [step, h, stepRunning, hi]

/-- With no port event left a Running block takes an instruction step (R120). -/
theorem step_free {s : State} (h : s.run = .running) (hi : s.inputs = []) : step s = instrStep s := by
  simp [step, h, stepRunning, hi]

/-- Everything a step that gives a next state can be: the block was Running, and the step was an instruction step, a
keypad refresh, a tick, a quit, or an instruction step followed by the scheduler's accounting. -/
theorem step_cases {s t : State} (h : step s = .next t) :
    s.run = .running ∧
      ((instrStep (s.setInputs s.inputs.tail) = .next t ∧ (s.inputs = [] ∨ ∃ rest, s.inputs = .stepIn :: rest)) ∨
       (∃ k rest, s.inputs = .keysIn k :: rest ∧ t = (s.setInputs rest).setKeys k) ∨
       (∃ rest, s.inputs = .tickIn :: rest ∧ t = tick (s.setInputs rest)) ∨
       (∃ rest, s.inputs = .quitIn :: rest ∧ t = (s.setInputs rest).halt .quit) ∨
       (∃ rest u, s.inputs = .pacedIn :: rest ∧ instrStep (s.setInputs rest) = .next u ∧ t = account Config.clockHz u)) := by
  cases hr : s.run with
  | halted r => rw [step_halted hr] at h; cases h
  | running =>
    refine ⟨rfl, ?_⟩
    cases hi : s.inputs with
    | nil =>
      rw [step_free hr hi] at h
      refine .inl ⟨?_, .inl rfl⟩
      have : s.setInputs ([] : List Input).tail = s := by cases s; simp_all [State.setInputs]
      rw [this]; exact h
    | cons e rest =>
      rw [step_event hr hi] at h
      cases e with
      | keysIn k =>
        simp only [perform, refreshKeys, whenRunning_running (s := s.setInputs rest) hr, Host.Outcome.next.injEq] at h
        exact .inr (.inl ⟨k, rest, rfl, h.symm⟩)
      | tickIn =>
        simp only [perform, Host.Outcome.next.injEq] at h
        exact .inr (.inr (.inl ⟨rest, rfl, h.symm⟩))
      | stepIn => exact .inl ⟨h, .inr ⟨rest, rfl⟩⟩
      | quitIn =>
        simp only [perform, quit, whenRunning_running (s := s.setInputs rest) hr, Host.Outcome.next.injEq] at h
        exact .inr (.inr (.inr (.inl ⟨rest, rfl, h.symm⟩)))
      | pacedIn =>
        simp only [perform, pacedStep] at h
        cases hu : instrStep (s.setInputs rest) with
        | next u => rw [hu] at h; exact .inr (.inr (.inr (.inr ⟨rest, u, rfl, hu, by simpa using h.symm⟩)))
        | fault f => rw [hu] at h; cases h
        | refused r => rw [hu] at h; cases h

end Sys2Proof.Machine
end

