-- ==== Sys2Proof/Tests/Slice0.lean ====
section
/-! SUPPORT. Tests: expected results are those of the spec's worked examples (95_test_vectors.md) and of its rules.  Each
runs one step on a small state.  The witnesses at the end meet the hypotheses of the statements. -/

namespace Sys2Proof.Tests

open Sys2Proof Sys2Proof.Machine

/-! ## Well-formedness: a good term and an ill-formed one for each check -/

theorem test_boot_font_length :
    (Boot.mk defaultFont []).wellFormed = true ∧ (Boot.mk (defaultFont ++ [0]) []).wellFormed = false := by decide
theorem test_row_bits_inside_mask :
    (OpcodeRow.mk "JP_addr" 0xF000#16 0x1000#16).wellFormed = true ∧
    (OpcodeRow.mk "JP_addr" 0xF000#16 0x1001#16).wellFormed = false := by decide
theorem test_rows_apart :
    (OpcodeRow.mk "A" 0xF00F#16 0x8000#16).apart (OpcodeRow.mk "B" 0xF00F#16 0x8001#16) = true ∧
    (OpcodeRow.mk "A" 0xF00F#16 0x8000#16).apart (OpcodeRow.mk "B" 0xF000#16 0x8000#16) = false := by decide
theorem test_table_rows_wellFormed : (opcodeTable.all OpcodeRow.wellFormed) = true := by decide
theorem test_table_rows_pairwise_apart : opcodeTable.Pairwise (fun r q => r.apart q = true) := by decide

/-! ## Decoding: a word of each row written out from R100, and the illegal words of L2.1 -/

theorem test_decode_control :
    [0x00E0#16, 0x00EE#16, 0x1234#16, 0x2FED#16, 0x3A42#16, 0x4B17#16, 0x5C30#16, 0x9E70#16, 0xB300#16].map decode =
    [some .cls, some .ret, some (.jp 0x234), some (.call 0xFED), some (.seKk 0xA 0x42), some (.sneKk 0xB 0x17),
      some (.seXy 0xC 3), some (.sneXy 0xE 7), some (.jpV0 0x300)] := by decide
theorem test_decode_alu :
    [0x6A3E#16, 0x75FF#16, 0x8120#16, 0x8341#16, 0x8562#16, 0x8783#16, 0x89A4#16].map decode =
    [some (.ldKk 0xA 0x3E), some (.addKk 5 0xFF), some (.ldXy 1 2), some (.orXy 3 4), some (.andXy 5 6), some (.xorXy 7 8),
      some (.addXy 9 0xA)] := by decide
theorem test_decode_alu_more :
    [0x8BC5#16, 0x8236#16, 0x8DE7#16, 0x812E#16, 0xC50F#16].map decode =
    [some (.subXy 0xB 0xC), some (.shrX 2 3), some (.subnXy 0xD 0xE), some (.shlX 1 2), some (.rnd 5 0x0F)] := by decide
theorem test_decode_index_memory :
    [0xA123#16, 0xF11E#16, 0xF429#16, 0xF033#16, 0xF255#16, 0xFF65#16].map decode =
    [some (.ldI 0x123), some (.addIX 1), some (.ldF 4), some (.ldB 0), some (.ldMemX 2), some (.ldXMem 0xF)] := by decide
theorem test_decode_devices :
    [0xDAB5#16, 0xE29E#16, 0xE1A1#16, 0xF507#16, 0xF10A#16, 0xF515#16, 0xF518#16].map decode =
    [some (.drw 0xA 0xB 5), some (.skp 2), some (.sknp 1), some (.ldXDt 5), some (.ldXK 1), some (.ldDtX 5),
      some (.ldStX 5)] := by decide
theorem test_decode_illegal :
    [0x0000#16, 0x0123#16, 0x00E1#16, 0x00FF#16, 0x5121#16, 0x8128#16, 0x812F#16, 0x9121#16, 0xE19F#16, 0xF100#16,
      0xF175#16].map decode = List.replicate 11 none := by decide
theorem test_decode_bytes :
    decodeBytes [0xA1, 0x23, 0x61] = .instr (.ldI 0x123) [0x61] ∧ decodeBytes [0x01, 0x23] = .rejected (.illegal 0x0123) ∧
    decodeBytes [0xA1] = .rejected .truncated := by decide
theorem test_encode_words :
    [Instr.jp 0x234, .sneKk 0xB 0x17, .drw 0xA 0xB 5, .shlX 1 2, .ldXMem 0xF].map encode =
    [0x1234#16, 0x4B17#16, 0xDAB5#16, 0x812E#16, 0xFF65#16] := by decide

/-! ## One step from a small state -/

/-- The reset state with some registers and I set. -/
def start (rs : List (Reg × Byte)) (i : Word := 0#16) : State :=
  rs.foldl (fun s r => s.setV r.1 r.2) (State.reset.setI i)

/-- A state with some bytes of memory set. -/
def withBytes (s : State) (a : Nat) (bs : List Byte) : State := s.setMem (Mem.writeBytes s.mem a bs)

/-- The step of the word w at PC gives a next state with the property p. -/
def stepGives (s : State) (w : Nat) (p : State → Bool) : Bool :=
  match step (s.withFetchWord 16 w) with
  | .next t => p t
  | _ => false

/-- The step of the word w at PC only halts, with the reason r. -/
def stepHalts (s : State) (w : Nat) (r : HaltReason) : Bool :=
  stepGives s w (fun t => t.run == .halted r && t.pc == s.pc && t.mem == (s.withFetchWord 16 w).mem && t.sp == s.sp && t.v == s.v)

/-! ### L2.2 control flow -/

theorem test_jp : stepGives State.reset 0x1234 (fun t => t.pc == 0x0234) = true := by decide
theorem test_jp_self : stepGives State.reset 0x1200 (fun t => t.pc == 0x0200) = true := by decide
theorem test_call : stepGives (State.reset.goto 0x0FFE) 0x2300 (fun t => stackGet t.stack 0 == 0x1000 && t.sp == 1 && t.pc == 0x0300) = true := by
  decide
theorem test_call_overflow :
    execCall 0x300 { State.reset with sp := Config.stackDepth } =
      .next { State.reset with sp := Config.stackDepth, run := .halted (.stackOverflow 0x0200 Config.stackDepth) } := by
  simp [execCall, raise, State.halt, State.reset]; rfl
theorem test_ret : stepGives ((State.reset.push 0x0206).goto 0x0300) 0x00EE (fun t => t.sp == 0 && t.pc == 0x0206) = true := by decide
theorem test_ret_underflow : stepHalts State.reset 0x00EE (.stackUnderflow 0x0200 0) = true := by decide
theorem test_se_kk : (stepGives (start [(3, 0x42)]) 0x3342 (fun t => t.pc == 0x0204) &&
    stepGives (start [(3, 0x42)]) 0x3341 (fun t => t.pc == 0x0202)) = true := by decide
theorem test_sne_kk : (stepGives (start [(3, 0x42)]) 0x4341 (fun t => t.pc == 0x0204) &&
    stepGives (start [(3, 0x42)]) 0x4342 (fun t => t.pc == 0x0202)) = true := by decide
theorem test_se_xy : (stepGives (start [(1, 7), (2, 7)]) 0x5120 (fun t => t.pc == 0x0204) &&
    stepGives (start [(1, 7), (2, 8)]) 0x5120 (fun t => t.pc == 0x0202)) = true := by decide
theorem test_sne_xy : (stepGives (start [(1, 7), (2, 8)]) 0x9120 (fun t => t.pc == 0x0204) &&
    stepGives (start [(1, 7)]) 0x9110 (fun t => t.pc == 0x0202)) = true := by decide
theorem test_jp_v0 : (stepGives (start [(0, 0x10)]) 0xB300 (fun t => t.pc == 0x0310) &&
    stepGives (start [(0, 0xFF)]) 0xBFFF (fun t => t.pc == 0x10FE)) = true := by decide
theorem test_skip_over_illegal_word :
    stepGives (withBytes (start [(3, 0x42)]) 0x202 [0, 0]) 0x3342 (fun t => t.pc == 0x0204 && t.run == .running) = true := by decide

/-! ### L2.3 loads and ALU -/

theorem test_ld_kk : stepGives State.reset 0x6A3E (fun t => t.reg 0xA == 0x3E && t.pc == 0x0202) = true := by decide
theorem test_add_kk : (stepGives (start [(0, 0x05)]) 0x70FF (fun t => t.reg 0 == 0x04) &&
    stepGives (start [(0, 0xFF)]) 0x7001 (fun t => t.reg 0 == 0x00 && t.reg 0xF == 0x00)) = true := by decide
theorem test_ld_xy : stepGives (start [(2, 0x99)]) 0x8120 (fun t => t.reg 1 == 0x99 && t.reg 2 == 0x99) = true := by decide
theorem test_or : stepGives (start [(1, 0x0F), (2, 0xF0), (0xF, 0x55)]) 0x8121 (fun t => t.reg 1 == 0xFF && t.reg 0xF == 0x55) = true := by
  decide
theorem test_and : stepGives (start [(1, 0x3C), (2, 0x0F)]) 0x8122 (fun t => t.reg 1 == 0x0C) = true := by decide
theorem test_xor : (stepGives (start [(1, 0x3C), (2, 0x0F)]) 0x8123 (fun t => t.reg 1 == 0x33) &&
    stepGives (start [(1, 0x3C)]) 0x8113 (fun t => t.reg 1 == 0)) = true := by decide
theorem test_add_xy : (stepGives (start [(0, 0xF0), (1, 0x10)]) 0x8014 (fun t => t.reg 0 == 0 && t.reg 0xF == 1) &&
    stepGives (start [(1, 0x80), (2, 0x7F)]) 0x8124 (fun t => t.reg 1 == 0xFF && t.reg 0xF == 0)) = true := by decide
theorem test_add_reads_old_vf :
    (stepGives (start [(1, 0x10), (0xF, 0xF5)]) 0x81F4 (fun t => t.reg 1 == 0x05 && t.reg 0xF == 1) &&
      stepGives (start [(0xF, 0x01), (1, 0x01)]) 0x8F14 (fun t => t.reg 1 == 0x01 && t.draws == 1 && t.pc == 0x0202)) = true := by decide
theorem test_sub : (stepGives (start [(1, 4), (2, 4)]) 0x8125 (fun t => t.reg 1 == 0 && t.reg 0xF == 1) &&
    stepGives (start [(1, 0), (2, 1)]) 0x8125 (fun t => t.reg 1 == 0xFF && t.reg 0xF == 0)) = true := by decide
theorem test_subn : (stepGives (start [(1, 4), (2, 5)]) 0x8127 (fun t => t.reg 1 == 1 && t.reg 0xF == 1) &&
    stepGives (start [(1, 1), (2, 0)]) 0x8127 (fun t => t.reg 1 == 0xFF && t.reg 0xF == 0)) = true := by decide
theorem test_shr : (stepGives (start [(2, 0x04)]) 0x8206 (fun t => t.reg 2 == 2 && t.reg 0xF == 0) &&
    stepGives (start [(2, 0xFF)]) 0x8236 (fun t => t.reg 2 == 0x7F && t.reg 0xF == 1 && t.reg 3 == 0)) = true := by decide
theorem test_shl : (stepGives (start [(3, 0x81)]) 0x830E (fun t => t.reg 3 == 2 && t.reg 0xF == 1) &&
    stepGives (start [(3, 0x7F)]) 0x830E (fun t => t.reg 3 == 0xFE && t.reg 0xF == 0)) = true := by decide
theorem test_rnd (s : State) : ∃ t, execRnd 5 0x00 s = .next t ∧ t.reg 5 = 0 := by
  refine ⟨_, rfl, ?_⟩
  simp [State.reg, getReg, State.seq, State.goto, State.drew, State.setV, setReg]
theorem test_rnd_steps : stepGives State.reset 0xC5FF (fun t => t.pc == 0x0202 && t.draws == 1 && t.reg 4 == 0) = true := by decide

/-! ### L2.4 index register and memory -/

theorem test_ld_i : stepGives State.reset 0xAFFF (fun t => t.i == 0x0FFF && t.pc == 0x0202) = true := by decide
theorem test_add_i : (stepGives (start [(1, 1)] 0x0FFF) 0xF11E (fun t => t.i == 0x1000 && t.reg 0xF == 0) &&
    stepGives (start [(1, 1)] 0xFFFF) 0xF11E (fun t => t.i == 0)) = true := by decide
theorem test_ld_f : (stepGives (start [(4, 0x0A)]) 0xF429 (fun t => t.i == 0x0032) &&
    stepGives (start [(4, 0xFF)]) 0xF429 (fun t => t.i == 0x04FB)) = true := by decide
theorem test_ld_b : stepGives (start [(0, 0xFE)] 0x0300) 0xF033 (fun t =>
    Mem.readBytes t.mem 0x300 3 == [2, 5, 4] && t.i == 0x0300) = true := by decide
theorem test_ld_b_fault : (stepHalts (start [] 0x0FFE) 0xF033 (.addressFault 0x0200 0x1000) &&
    stepGives (start [(0, 9)] 0x0FFD) 0xF033 (fun t => Mem.readBytes t.mem 0xFFD 3 == [0, 0, 9])) = true := by decide
theorem test_store : stepGives (start [(0, 1), (1, 2), (2, 3), (3, 4)] 0x0400) 0xF255 (fun t =>
    Mem.readBytes t.mem 0x400 4 == [1, 2, 3, 0] && t.i == 0x0400) = true := by decide
theorem test_store_fault : (stepHalts (start [] 0x0FF1) 0xFF55 (.addressFault 0x0200 0x1000) &&
    stepGives (start [(0xF, 7)] 0x0FF0) 0xFF55 (fun t => Mem.read t.mem 0xFFF == 7)) = true := by decide
theorem test_load : (stepGives (withBytes (start [(3, 9)] 0x0300) 0x300 [2, 5, 4, 8]) 0xF265 (fun t =>
      t.reg 0 == 2 && t.reg 1 == 5 && t.reg 2 == 4 && t.reg 3 == 9 && t.i == 0x0300) &&
    stepGives State.reset 0xF465 (fun t => t.reg 0 == 0xF0 && t.reg 3 == 0x90 && t.reg 4 == 0xF0)) = true := by decide
theorem test_load_fault : stepHalts (start [] 0x1003) 0xF065 (.addressFault 0x0200 0x1003) = true := by decide

/-! ### L2.5 display -/

/-- A framebuffer with one pixel on, at column c and row r. -/
def onePixel (c : Fin 64) (r : Fin 32) : Frame := togglePixel blankFrame r c

theorem test_cls : stepGives { State.reset with fb := onePixel 5 6 } 0x00E0 (fun t =>
    !pixel t.fb 6 5 && t.dirty && t.pc == 0x0202) = true := by decide
theorem test_drw_wraps :
    (stepGives (withBytes (start [(0, 60), (1, 31)] 0x300) 0x300 [0xFF, 0x80]) 0xD012 (fun t =>
      pixel t.fb 31 60 && pixel t.fb 31 3 && !pixel t.fb 31 4 && pixel t.fb 0 60 && !pixel t.fb 0 61 && t.reg 0xF == 0 && t.dirty)) = true := by
  decide
theorem test_drw_collides :
    (stepGives { withBytes (start [] 0x300) 0x300 [0xC0] with fb := onePixel 0 0 } 0xD011 (fun t =>
        !pixel t.fb 0 0 && pixel t.fb 0 1 && t.reg 0xF == 1) &&
      stepGives { withBytes (start [] 0x300) 0x300 [0x80] with fb := onePixel 1 0 } 0xD011 (fun t =>
        pixel t.fb 0 0 && pixel t.fb 0 1 && t.reg 0xF == 0)) = true := by decide
theorem test_drw_edges :
    (stepGives (start [(0xF, 1)] 0x1000) 0xD010 (fun t => t.reg 0xF == 0 && t.dirty && t.run == .running) &&
      stepHalts (start [(0xF, 1)] 0x0FFF) 0xD012 (.addressFault 0x0200 0x1000) &&
      stepGives (withBytes (start [(0xF, 5)] 0x300) 0x300 [0x80]) 0xD0F1 (fun t => pixel t.fb 5 0 && t.reg 0xF == 0)) = true := by decide
/-- The second of two equal draws need not collide: with every sprite pixel on before, the first turns them off (log 33). -/
theorem test_drw_twice_without_second_collision :
    (stepGives { withBytes (start [] 0x300) 0x300 [0x80] with fb := onePixel 0 0 } 0xD011 (fun t =>
      t.reg 0xF == 1 && stepGives (t.goto 0x200) 0xD011 (fun u => u.reg 0xF == 0 && pixel u.fb 0 0))) = true := by decide

/-! ### L2.6 keypad -/

/-- Only the key k is pressed. -/
def oneKey (k : Nat) : Keys := (Vector.replicate 16 false).setIfInBounds k true

theorem test_skp : (stepGives ((start [(2, 5)]).setKeys (oneKey 5)) 0xE29E (fun t => t.pc == 0x0204) &&
    stepGives (start [(2, 5)]) 0xE29E (fun t => t.pc == 0x0202)) = true := by decide
theorem test_sknp : (stepGives (start [(2, 5)]) 0xE2A1 (fun t => t.pc == 0x0204) &&
    stepGives ((start [(2, 5)]).setKeys (oneKey 5)) 0xE2A1 (fun t => t.pc == 0x0202)) = true := by decide
theorem test_key_faults : (stepHalts (start [(2, 0x10)]) 0xE29E (.keyIndexFault 0x0200 0x10) &&
    stepHalts (start [(2, 0xFF)]) 0xE2A1 (.keyIndexFault 0x0200 0xFF)) = true := by decide
theorem test_key_wait : (stepGives (State.reset.goto 0x0210) 0xF30A (fun t => t.pc == 0x0210 && t.reg 3 == 0) &&
    stepGives ((State.reset.goto 0x0210).setKeys (oneKey 0xB)) 0xF30A (fun t => t.reg 3 == 0x0B && t.pc == 0x0212)) = true := by decide

/-! ### L2.7 timers, ticks and the reference schedule -/

theorem test_ld_dt : stepGives (State.reset.setDt 0x3C) 0xF507 (fun t => t.reg 5 == 0x3C) = true := by decide
theorem test_set_dt : stepGives (start [(5, 0x3C)]) 0xF515 (fun t => t.dt == 0x3C && t.st == 0) = true := by decide
theorem test_set_st : stepGives (start [(5, 2)]) 0xF518 (fun t => t.st == 2 && t.dt == 0) = true := by decide

/-- The step that takes one port event gives a next state with the property p. -/
def eventGives (s : State) (e : Input) (p : State → Bool) : Bool :=
  match step (s.setInputs [e]) with
  | .next t => p t
  | _ => false

theorem test_tick : (eventGives { State.reset with dt := 0x3C, st := 0x02 } .tickIn (fun t => t.dt == 0x3B && t.st == 0x01) &&
    eventGives State.reset .tickIn (fun t => t.dt == 0 && t.st == 0)) = true := by decide
theorem test_tick_presents : eventGives { State.reset with dirty := true } .tickIn (fun t => !t.dirty) = true ∧
    (stepPresents { State.reset with dirty := true, inputs := [.tickIn] }).isSome = true ∧
    (stepPresents { State.reset with inputs := [.tickIn] }).isNone = true := by decide
theorem test_refresh_and_quit : (eventGives State.reset (.keysIn (oneKey 3)) (fun t => t.keys == oneKey 3 && t.pc == 0x0200) &&
    eventGives State.reset .quitIn (fun t => t.run == .halted .quit && haltOut t == some (0, none))) = true := by decide
theorem test_halted_takes_no_tick :
    step { State.reset with run := .halted .quit, dt := 9, inputs := [.tickIn] } = .fault (.halted .quit) := rfl

/-- The instructions, counted from 1, after which the reference scheduler ticks at clock rate c (R263). -/
def tickPositions (c : Nat) : Nat → Nat → Nat → List Nat
  | 0, _, _ => []
  | n + 1, k, acc =>
    if tickDue c acc then k :: tickPositions c n (k + 1) (acc + 60 - c) else tickPositions c n (k + 1) (acc + 60)

theorem test_tick_positions : tickPositions 500 101 1 0 = [9, 17, 26, 34, 42, 51, 59, 67, 76, 84, 92, 101] ∧
    tickPositions 60 6 1 0 = [2, 3, 4, 5, 6] := by decide
theorem test_round_cycles : roundCycles 500 1 60 = 8 ∧ roundCycles 500 1 1000 = 0 := by decide

/-! ### L2.8 fetch, faults and reset -/

theorem test_fetch_faults : step (State.reset.goto 0x0FFF) = .next ((State.reset.goto 0x0FFF).halt (.addressFault 0x0FFF 0x1000)) ∧
    step (State.reset.goto 0x1000) = .next ((State.reset.goto 0x1000).halt (.addressFault 0x1000 0x1000)) := ⟨rfl, rfl⟩
theorem test_empty_image : step State.reset = .next (State.reset.halt (.decodeFault 0x0200 0x0000)) := rfl
theorem test_font_is_no_code : step (State.reset.goto 0) = .next ((State.reset.goto 0).halt (.decodeFault 0x0000 0xF090)) := rfl
theorem test_reset_memory : Mem.readBytes State.reset.mem 0 5 = [0xF0, 0x90, 0x90, 0x90, 0xF0] ∧
    Mem.readBytes State.reset.mem 0x4B 6 = [0xF0, 0x80, 0xF0, 0x80, 0x80, 0x00] ∧ defaultFont.length = 80 := by decide
/-- A FONT whose first glyph is replaced (only its first five bytes are given, the rest stay the default). -/
theorem test_boot_image : (State.boot ⟨[0xF0, 0x90, 0x77], [0xAA, 0xBB, 0xCC]⟩).mem =
    [(2, 0x77), (0x200, 0xAA), (0x201, 0xBB), (0x202, 0xCC)] := by decide
theorem test_boot_runs : (match step (State.boot ⟨[], [0xAA, 0xBB, 0xCC]⟩) with
    | .next t => t.i == 0x0ABB
    | _ => false) = true := by decide
theorem test_self_modified_word :
    (stepGives ((start [(0, 0x61), (1, 0x7F)] 0x208).goto 0x206) 0xF155 (fun t =>
      match step t with | .next u => u.reg 1 == 0x7F && u.pc == 0x20A | _ => false)) = true := by decide
theorem test_report : [HaltReason.quit, .decodeFault 0x200 0x00E1, .stackOverflow 0x200 12, .stackUnderflow 0x200 0,
      .addressFault 0x200 0x1000, .keyIndexFault 0x200 0x10].map (fun r => haltOut (State.reset.halt r)) =
    [some (0, none), some (1, some (0x200, 0x00E1)), some (2, some (0x200, 12)), some (3, some (0x200, 0)),
      some (4, some (0x200, 0x1000)), some (5, some (0x200, 0x10))] := rfl
theorem test_table_words : decodeTableWord 16 0x8006 = some (.shrX 0 0) ∧ decodeTableWord 16 0xF065 = some (.ldXMem 0) ∧
    decodeTableWord 16 0x0000 = none := by decide

/-! ## Witnesses: states and operands that meet the hypotheses of the statements -/

/-- A Running state at PC with the word w there and the events l waiting. -/
def atWord (pc : Word) (w : Nat) (l : List Input) : State := ((State.reset.goto pc).withFetchWord 16 w).setInputs l

/-- The execution of i from s gives a next state with the property p. -/
def execGives (i : Instr) (s : State) (p : State → Bool) : Bool :=
  match exec i s with
  | .next t => p t
  | _ => false

theorem witness_EncodeOfDecodeIsIdentity : decode 0x8F2E#16 = some (.shlX 0xF 2) := by decide
theorem witness_DecodeFollowsTheOpcodeTable :
    rowOf (.drw 0 0 0) ∈ opcodeTable ∧ (rowOf (.drw 0 0 0)).holds 0xDFFF#16 = true ∧
    decode 0xDFFF#16 = some (.drw 0xF 0xF 0xF) := by decide
theorem witness_IllegalWordsAreExactlyThese :
    ∀ l ∈ [[], [Input.stepIn]], (atWord 0x0FFE 0x00E1 l).run = .running ∧ (atWord 0x0FFE 0x00E1 l).inputs = l ∧
      (atWord 0x0FFE 0x00E1 l).pc.toNat + 1 < 0x1000 ∧
      decode (wordOfBytes (Mem.read (atWord 0x0FFE 0x00E1 l).mem 0x0FFE) (Mem.read (atWord 0x0FFE 0x00E1 l).mem 0x0FFF)) = none := by
  decide
theorem witness_StepRunsTheDecodedInstruction :
    (∀ l ∈ [[], [Input.stepIn], [Input.pacedIn]], (atWord 0x0FFE 0x1200 l).run = .running ∧ (atWord 0x0FFE 0x1200 l).inputs = l ∧
      (atWord 0x0FFE 0x1200 l).pc.toNat + 1 < 0x1000 ∧
      decode (wordOfBytes (Mem.read (atWord 0x0FFE 0x1200 l).mem 0x0FFE) (Mem.read (atWord 0x0FFE 0x1200 l).mem 0x0FFF)) =
        some (.jp 0x200)) := by decide
theorem witness_FetchOutsideMemoryHalts :
    (∀ (p : Word) (l : List Input), ((State.reset.goto p).setInputs l).run = .running ∧
      ((State.reset.goto p).setInputs l).inputs = l ∧ ((State.reset.goto p).setInputs l).pc = p) ∧
    0x0FFF ≤ (0x0FFF#16).toNat ∧ 0x0FFF ≤ (0x1000#16).toNat := ⟨fun _ _ => ⟨rfl, rfl, rfl⟩, by decide, by decide⟩
theorem witness_HaltedBlockTakesNoStep : (State.reset.halt .quit).run = .halted .quit := rfl
theorem witness_RunningBlockAlwaysSteps : State.reset.run = .running := rfl
theorem witness_FaultingStepChangesOnlyRun :
    step (State.reset.setInputs [.stepIn]) = .next (State.reset.halt (.decodeFault 0x0200 0)) ∧
    (State.reset.halt (.decodeFault 0x0200 0)).run = .halted (.decodeFault 0x0200 0) ∧
    HaltReason.decodeFault 0x0200 0 ≠ .quit := ⟨rfl, rfl, by decide⟩
theorem witness_EachInstructionRaisesItsOwnFault :
    (execGives .ret State.reset (fun t => t.run == .halted (.stackUnderflow 0x0200 0)) &&
      execGives (.drw 0 0 2) (start [] 0xFFF) (fun t => t.run == .halted (.addressFault 0x0200 0x1000)) &&
      execGives (.ldB 0) (start [] 0xFFE) (fun t => t.run == .halted (.addressFault 0x0200 0x1000)) &&
      execGives (.ldMemX 1) (start [] 0xFFF) (fun t => t.run == .halted (.addressFault 0x0200 0x1000)) &&
      execGives (.ldXMem 0) (start [] 0x1000) (fun t => t.run == .halted (.addressFault 0x0200 0x1000)) &&
      execGives (.sknp 0) (start [(0, 0x10)]) (fun t => t.run == .halted (.keyIndexFault 0x0200 0x10))) = true := by decide
/-- The fault of CALL, with the stack full. -/
theorem witness_CallOverflows : ∃ t, exec (.call 0x300) { State.reset with sp := Config.stackDepth } = .next t ∧
    t.run = .halted (.stackOverflow 0x0200 Config.stackDepth) := ⟨_, test_call_overflow, rfl⟩
theorem witness_PcUpdateIsOneOfFour :
    (execGives (.jp 0xFFF) State.reset (fun t => t.run == .running && t.pc == 0xFFF) &&
      execGives (.call 0x300) State.reset (fun t => t.run == .running && t.pc == 0x300) &&
      execGives .ret (State.reset.push 0x206) (fun t => t.run == .running && t.pc == 0x206) &&
      execGives (.skp 0) (State.reset.setKeys (oneKey 0)) (fun t => t.run == .running && t.pc == 0x204) &&
      execGives (.ldXK 0) State.reset (fun t => t.run == .running && t.pc == 0x200) &&
      execGives .cls (State.reset.goto 0xFFE) (fun t => t.run == .running && t.pc == 0x1000)) = true := by decide
theorem witness_OnlyTheListedInstructionsWrite :
    (execGives (.ldKk 0 1) State.reset (fun t => t.v != State.reset.v) &&
      execGives (.ldI 1) State.reset (fun t => t.i != State.reset.i) &&
      execGives (.call 1) State.reset (fun t => t.stack != State.reset.stack && t.sp != State.reset.sp) &&
      execGives (.ldDtX 0) (start [(0, 1)]) (fun t => t.dt != State.reset.dt) &&
      execGives (.ldStX 0) (start [(0, 1)]) (fun t => t.st != State.reset.st) &&
      execGives .cls State.reset (fun t => t.dirty != State.reset.dirty) &&
      execGives (.ldMemX 0) (start [(0, 1)] 0x300) (fun t => t.mem != State.reset.mem)) = true := by decide
theorem witness_InstructionsDoNotReadStDirtyAccKeys :
    (∀ x, Instr.cls ≠ .skp x) ∧ (∀ x, Instr.cls ≠ .sknp x) ∧ (∀ x, Instr.cls ≠ .ldXK x) := by
  refine ⟨fun x h => ?_, fun x h => ?_, fun x h => ?_⟩ <;> cases h
theorem witness_BootLoadsFontAndImage :
    (Boot.mk defaultFont (List.replicate 4000 0xAB)).wellFormed = true ∧ (0x0FFF : Nat) < 0x1000 := by decide
theorem witness_StepKeepsTheInvariant : State.reset.Inv ∧ step State.reset = .next (State.reset.halt (.decodeFault 0x0200 0)) :=
  ⟨⟨⟨List.Pairwise.nil, fun _ h => absurd h List.not_mem_nil⟩, Nat.zero_le _, Nat.zero_le _,
    fun _ h => absurd h List.not_mem_nil, by decide⟩, rfl⟩
theorem witness_events :
    ∀ e ∈ [Input.keysIn (oneKey 3), .tickIn, .quitIn, .pacedIn],
      (State.reset.setInputs [e]).run = .running ∧ (State.reset.setInputs [e]).inputs = e :: [] := by
  intro e _; exact ⟨rfl, rfl⟩
theorem witness_KeypadRefreshIsTheOnlyWriterOfKeys :
    step (State.reset.setInputs [.keysIn (oneKey 3)]) = .next (State.reset.setKeys (oneKey 3)) ∧
    (State.reset.setKeys (oneKey 3)).keys ≠ State.reset.keys := ⟨rfl, by decide⟩
theorem witness_PresentsOnlyAtATick :
    stepPresents { State.reset with dirty := true, inputs := [.tickIn] } = some State.reset.fb := rfl
/-- A jump to itself at 0x0200 with DIRTY set and the accumulator one instruction short of a tick, and a paced step next. -/
def pacedDirty : State := { atWord 0x0200 0x1200 [.pacedIn] with dirty := true, acc := Config.clockHz }
/-- A tick due in a paced step presents the dirty frame (R257, R261). -/
theorem witness_PresentsInAPacedStep : stepPresents pacedDirty = some pacedDirty.fb := by
  have hu : instrStep (pacedDirty.setInputs []) = .next (pacedDirty.setInputs []) := rfl
  have hd : tickDue Config.clockHz (pacedDirty.setInputs []).acc = true := (tickDue_iff _ _).2 (Nat.lt_add_of_pos_right (by decide))
  have ht : tickedFrom pacedDirty = some (pacedDirty.setInputs []) := by
    rw [tickedFrom_pacedIn rfl rfl hu, if_pos ⟨rfl, hd⟩]
  exact stepPresents_of_ticked ht rfl
/-- A paced step of a jump to itself leaves the block Running at the same place, whatever the clock rate. -/
theorem paced_self_jump {s : State} (hr : s.run = .running) (hp : s.pc = 0x0200)
    (hm : s.mem = (atWord 0x0200 0x1200 []).mem) :
    ∃ t, step (s.setInputs [.pacedIn]) = .next t ∧ t.run = .running ∧ t.pc = 0x0200 ∧
      t.mem = (atWord 0x0200 0x1200 []).mem := by
  have hf : fetch (s.setInputs []) = .ok 0x1200#16 := by
    have he : fetch (s.setInputs []) = fetch (atWord 0x0200 0x1200 []) := by simp only [fetch, State.setInputs, hp, hm]; rfl
    rw [he]; rfl
  have hu : instrStep (s.setInputs []) = .next ((s.setInputs []).goto 0x0200) := by rw [instrStep, hf]; rfl
  refine ⟨account Config.clockHz ((s.setInputs []).goto 0x0200), ?_, ?_⟩
  · rw [step_event (s := s.setInputs [.pacedIn]) (rest := []) hr rfl]
    show pacedStep (s.setInputs []) = _
    rw [pacedStep, hu]
  · rw [account_running (s := (s.setInputs []).goto 0x0200) hr]
    split <;> exact ⟨hr, rfl, hm⟩
/-- The reference scheduler's paced steps, for ever, on a jump to itself: the block stays Running and rounds recur. -/
theorem witness_RecurringPacedStepsAreFair :
    StaysRunning (fun _ => .pacedIn) (atWord 0x0200 0x1200 []) ∧ RoundsRecur (fun _ => .pacedIn) ∧
    ∀ n : Nat, ∃ m, n ≤ m ∧ ((Input.pacedIn = .tickIn) ∨ Input.pacedIn = .pacedIn) := by
  have h : ∀ n, ∃ t, runUnder (fun _ => .pacedIn) n (atWord 0x0200 0x1200 []) = .next t ∧ t.run = .running ∧
      t.pc = 0x0200 ∧ t.mem = (atWord 0x0200 0x1200 []).mem := by
    intro n
    induction n with
    | zero => exact ⟨_, rfl, rfl, rfl, rfl⟩
    | succ n ih =>
      obtain ⟨t, ht, hr, hp, hm⟩ := ih
      obtain ⟨u, hu, h⟩ := paced_self_jump hr hp hm
      exact ⟨u, by rw [runUnder, ht]; exact hu, h⟩
  exact ⟨fun n => let ⟨t, ht, hr, _⟩ := h n; ⟨t, ht, hr⟩, fun n => ⟨n, Nat.le_refl n, .inr rfl⟩,
    fun n => ⟨n, Nat.le_refl n, .inr rfl⟩⟩
theorem witness_ReferenceAccountingIsExact : State.reset.run = .running ∧ 60 ≤ 500 ∧ State.reset.acc ≤ 500 := by decide
/-- A paced step whose instruction leaves the block Running, with no tick due or with one due, as the clock rate has it. -/
theorem witness_PacedStep : instrStep (atWord 0x0200 0x1200 []) = .next (atWord 0x0200 0x1200 []) ∧
    (atWord 0x0200 0x1200 []).run = .running ∧
    ((({ atWord 0x0200 0x1200 [] with acc := Config.clockHz } : State).acc + 60 > Config.clockHz)) := by
  refine ⟨rfl, rfl, ?_⟩
  show Config.clockHz < Config.clockHz + 60
  omega
theorem witness_ReturnPopsPc : (State.reset.push 0x206).sp ≠ 0 ∧ State.reset.sp = 0 := by decide
theorem witness_CallPushesTheReturnAddress : ({ State.reset with sp := 11 } : State).sp < Config.stackDepth ∧
    ({ State.reset with sp := Config.stackDepth } : State).sp = Config.stackDepth := by
  refine ⟨?_, rfl⟩
  show 11 < Config.stackSlack + 12
  omega
theorem witness_FlagFormsOffVf : (0xE#4 : Reg) ≠ 0xF#4 := by decide
theorem witness_RandomByteIsMasked : (0x0F#8 : Byte).getLsbD 4 = false := by decide
theorem witness_BcdStoresThreeDigits : (start [] 0xFFD).i.toNat + 2 < 0x1000 ∧ 0x1000 ≤ (start [] 0xFFE).i.toNat + 2 := by decide
theorem witness_BlockStoreAndLoad :
    (start [] 0xFF0).i.toNat + (0xF#4 : Reg).toNat < 0x1000 ∧ 0x1000 ≤ (start [] 0xFF1).i.toNat + (0xF#4 : Reg).toNat := by decide
theorem witness_FetchSeesEarlierStores :
    (start [] 0xFFE).i.toNat + (1#4 : Reg).toNat < 0x1000 ∧ (1#4 : Reg).toNat ≤ (1#4 : Reg).toNat ∧
    (1#4 : Reg).toNat = (0#4 : Reg).toNat + 1 ∧ (State.reset.goto 0xFFE).pc.toNat = (start [] 0xFFE).i.toNat + (0#4 : Reg).toNat := by decide
theorem witness_Draw :
    (0#4 = (0#4 : Nibble) ∨ (start [] 0xFFFF).i.toNat + (0#4 : Nibble).toNat ≤ 0x1000) ∧
    (0xF#4 = (0#4 : Nibble) ∨ (start [] 0xFF1).i.toNat + (0xF#4 : Nibble).toNat ≤ 0x1000) ∧
    ((2#4 : Nibble) ≠ 0#4 ∧ 0x1000 < (start [] 0xFFF).i.toNat + (2#4 : Nibble).toNat) ∧
    ((0#4 : Reg) ≠ 0xF#4 ∧ (0xE#4 : Reg) ≠ 0xF#4) := by decide
/-- A sprite bit lands on the last pixel of the frame. -/
theorem witness_SpriteLights :
    SpriteLights (withBytes (start [(0, 63), (1, 31)] 0x300) 0x300 [0x80]) 0 1 1 31 63 :=
  ⟨0, 0, by decide, by decide, by decide, by decide, by decide⟩
theorem witness_KeySkips : ((start [(0, 0x0F)]).reg 0).toNat < 16 ∧ 0x0F < ((start [(0, 0x10)]).reg 0).toNat := by decide
theorem witness_KeyWait : (∃ k : Fin 16, (State.reset.setKeys (oneKey 0xF)).keys[k.val] = true) ∧
    (∀ k : Fin 16, State.reset.keys[k.val] = false) := by decide

end Sys2Proof.Tests
end

section
/-! PROOFS. The contents of memory at reset (20_memory.md R63): what a loaded FONT and a loaded program image leave at
each address. -/

namespace Sys2Proof.Machine

/-- `Boot.wellFormed` as an equation with the numeral of R8. -/
theorem boot_wellFormed_iff (b : Boot) : b.wellFormed = true ↔ b.font.length = 80 := by
  simp [Boot.wellFormed, Config.fontSize]

/-- Beyond the glyph bytes of the default FONT an unlisted address reads as 0x00 (R63). -/
theorem unlisted_of_eighty_le {a : Nat} (h : 80 ≤ a) : unlisted a = 0#8 :=
  List.getD_eq_default defaultFont 0#8 h

/-- A read after loading the first n bytes of a list at an address: a byte of the list inside the part that was loaded,
the byte that was there before elsewhere (R63, R67). -/
theorem Mem.read_writeBytes_take (m : Mem) (start n : Nat) (bs : List Byte) (a : Nat) :
    Mem.read (Mem.writeBytes m start (bs.take n)) a =
      if start ≤ a ∧ a < start + min bs.length n then bs.getD (a - start) 0#8 else Mem.read m a := by
  rw [Mem.read_writeBytes]
  by_cases h : start ≤ a ∧ a < start + min bs.length n
  · have hlt : a - start < bs.length := by omega
    rw [dif_pos (by rwa [List.length_take, Nat.min_comm]), if_pos h, List.getElem_take, List.getD_eq_getElem _ _ hlt]
  · rw [dif_neg (by rwa [List.length_take, Nat.min_comm]), if_neg h]

/-- Memory after reset, before the program image is loaded: FONT, then zeros (R63, R280). -/
theorem Mem.read_loadFont {font : List Byte} (hfont : font.length = 80) (a : Nat) :
    Mem.read (Mem.writeBytes State.reset.mem 0 (font.take Config.fontSize)) a =
      if a < 80 then font.getD a 0#8 else 0#8 := by
  have hlen : min font.length Config.fontSize = 80 := by rw [hfont]; rfl
  rw [Mem.read_writeBytes_take, hlen]
  by_cases ha : a < 80
  · rw [if_pos ⟨Nat.zero_le a, by omega⟩, if_pos ha, Nat.sub_zero]
  · rw [if_neg (by omega), if_neg ha]
    exact unlisted_of_eighty_le (by omega)

/-- Every byte of memory after reset with a FONT of 80 bytes and any program image; the image starts above the glyph
bytes, so it leaves them as FONT has them (R63, R282). -/
theorem State.read_boot {b : Boot} (hb : b.wellFormed = true) (a : Nat) :
    Mem.read (State.boot b).mem a =
      if a < 80 then b.font.getD a 0#8
      else if Config.programOffset ≤ a ∧ a < Config.programOffset + min b.image.length Config.maxProgram then
        b.image.getD (a - Config.programOffset) 0#8
      else 0#8 := by
  have hoff : 80 ≤ Config.programOffset := by decide
  rw [State.boot, State.setMem_mem, Mem.read_writeBytes_take, Mem.read_loadFont ((boot_wellFormed_iff b).mp hb)]
  by_cases ha : a < 80
  · have himage : ¬ (Config.programOffset ≤ a ∧ a < Config.programOffset + min b.image.length Config.maxProgram) := by
      omega
    rw [if_neg himage]
    simp only [if_pos ha]
  · simp only [if_neg ha]

/-- Settles O17: a read after the image's load falls through to FONT's load, and that to the zeros of reset. -/
theorem bootLoadsFontAndImage : Obligations.BootLoadsFontAndImage :=
  fun _ hb => ⟨fun a _ => State.read_boot hb a, rfl⟩

end Sys2Proof.Machine
end

section
/-! PROOFS. The decoder and the opcode table (30_encoding.md R100, R101): a word matches a row exactly when it decodes to
an instruction of that row. -/

namespace Sys2Proof

/-! ### A word is put together from its fields (R91, R92) -/

theorem fmtNNN_fields (w : Word) : fmtNNN (fieldOp w) (fieldNnn w) = w := by
  apply BitVec.eq_of_toNat_eq
  have := w.isLt
  rw [fmtNNN_toNat, fieldOp_toNat, fieldNnn_toNat]; omega

theorem fmtXKK_fields (w : Word) : fmtXKK (fieldOp w) (fieldX w) (fieldKk w) = w := by
  apply BitVec.eq_of_toNat_eq
  have := w.isLt
  rw [fmtXKK_toNat, fieldOp_toNat, fieldX_toNat, fieldKk_toNat]; omega

theorem fmtXYN_fields (w : Word) : fmtXYN (fieldOp w) (fieldX w) (fieldY w) (fieldN w) = w := by
  apply BitVec.eq_of_toNat_eq
  have := w.isLt
  rw [fmtXYN_toNat, fieldOp_toNat, fieldX_toNat, fieldY_toNat, fieldN_toNat]; omega

/-! ### What a matched row says about the fields of the word -/

theorem OpcodeRow.holds_iff (r : OpcodeRow) (w : Word) : r.holds w = true ↔ w &&& r.mask = r.bits := beq_iff_eq

/-- Where a row's mask covers a field of n bits at k, a word of the row has the row's value in that field. -/
theorem OpcodeRow.extractLsb'_eq_of_holds {r : OpcodeRow} {w : Word} {k n : Nat} (h : r.holds w = true)
    (hmask : r.mask.extractLsb' k n = BitVec.allOnes n) : w.extractLsb' k n = r.bits.extractLsb' k n := by
  rw [← (r.holds_iff w).mp h, BitVec.extractLsb'_and, hmask, BitVec.and_allOnes]

/-- Every row fixes opClass. -/
theorem fieldOp_mask_rowOf (j : Instr) : fieldOp (rowOf j).mask = BitVec.allOnes 4 := by
  cases j <;> dsimp only [rowOf] <;> rfl

theorem fieldOp_eq_of_holds {j : Instr} {w : Word} (h : (rowOf j).holds w = true) : fieldOp w = fieldOp (rowOf j).bits :=
  OpcodeRow.extractLsb'_eq_of_holds h (fieldOp_mask_rowOf j)

theorem fieldN_eq_of_holds {r : OpcodeRow} {w : Word} (h : r.holds w = true) (hmask : fieldN r.mask = BitVec.allOnes 4) :
    fieldN w = fieldN r.bits := OpcodeRow.extractLsb'_eq_of_holds h hmask

theorem fieldKk_eq_of_holds {r : OpcodeRow} {w : Word} (h : r.holds w = true) (hmask : fieldKk r.mask = BitVec.allOnes 8) :
    fieldKk w = fieldKk r.bits := OpcodeRow.extractLsb'_eq_of_holds h hmask

/-- A row that fixes all sixteen bits holds of its own word only. -/
theorem OpcodeRow.eq_bits_of_holds {r : OpcodeRow} {w : Word} (h : r.holds w = true) (hmask : r.mask = BitVec.allOnes 16) :
    w = r.bits := by
  rw [← (r.holds_iff w).mp h, hmask, BitVec.and_allOnes]

/-- A word that matches the row of some instruction decodes to an instruction of that row: the fields the row fixes are
those that R101 branches on. -/
theorem map_rowOf_decode_of_holds {j : Instr} {w : Word} (h : (rowOf j).holds w = true) :
    (decode w).map rowOf = some (rowOf j) := by
  have hop := fieldOp_eq_of_holds h
  cases j <;> dsimp only [rowOf] at h hop ⊢
  case cls | ret => rw [OpcodeRow.eq_bits_of_holds h rfl]; rfl
  case jp | call | seKk | sneKk | ldKk | addKk | ldI | jpV0 | rnd | drw => rw [decode, hop]; rfl
  case seXy | sneXy | ldXy | orXy | andXy | xorXy | addXy | subXy | shrX | subnXy | shlX =>
    rw [decode, hop, fieldN_eq_of_holds h rfl]; rfl
  case skp | sknp | ldXDt | ldXK | ldDtX | ldStX | addIX | ldF | ldB | ldMemX | ldXMem =>
    rw [decode, hop, fieldKk_eq_of_holds h rfl]; rfl

/-! ### What a decoded word says about its row -/

theorem eq_ofNat_of_toNat_eq {n k : Nat} {a : BitVec n} (h : a.toNat = k) : a = BitVec.ofNat n k := by
  rw [← h, BitVec.ofNat_toNat, BitVec.setWidth_eq]

/-- A row that fixes opClass alone holds of the words of its opClass. -/
theorem OpcodeRow.holds_of_fieldOp {r : OpcodeRow} {w : Word} {o : Nat} (ho : (fieldOp w).toNat = o)
    (hmask : r.mask = 0xF000#16) (hbits : r.bits = fmtNNN (BitVec.ofNat 4 o) 0#12) : r.holds w = true := by
  rw [r.holds_iff, hmask, hbits, ← eq_ofNat_of_toNat_eq ho, ← Laws.EncodingFits.fmtNNN_mask _ (fieldNnn w), fmtNNN_fields]

/-- A row that fixes opClass and w[3:0] holds of the words with its values there. -/
theorem OpcodeRow.holds_of_fieldN {r : OpcodeRow} {w : Word} {o n : Nat} (ho : (fieldOp w).toNat = o)
    (hn : (fieldN w).toNat = n) (hmask : r.mask = 0xF00F#16)
    (hbits : r.bits = fmtXYN (BitVec.ofNat 4 o) 0#4 0#4 (BitVec.ofNat 4 n)) : r.holds w = true := by
  rw [r.holds_iff, hmask, hbits, ← eq_ofNat_of_toNat_eq ho, ← eq_ofNat_of_toNat_eq hn,
    ← Laws.EncodingFits.fmtXYS_mask _ (fieldX w) (fieldY w), fmtXYN_fields]

/-- A row that fixes opClass and w[7:0] holds of the words with its values there. -/
theorem OpcodeRow.holds_of_fieldKk {r : OpcodeRow} {w : Word} {o k : Nat} (ho : (fieldOp w).toNat = o)
    (hk : (fieldKk w).toNat = k) (hmask : r.mask = 0xF0FF#16)
    (hbits : r.bits = fmtXKK (BitVec.ofNat 4 o) 0#4 (BitVec.ofNat 8 k)) : r.holds w = true := by
  rw [r.holds_iff, hmask, hbits, ← eq_ofNat_of_toNat_eq ho, ← eq_ofNat_of_toNat_eq hk,
    ← Laws.EncodingFits.fmtXSS_mask _ (fieldX w), fmtXKK_fields]

theorem holds_of_decode0 {w : Word} {i : Instr} (h : decode0 w = some i) : (rowOf i).holds w = true := by
  unfold decode0 at h
  split at h
  next hw => cases h; subst hw; decide
  next => split at h <;> cases h; next hw => subst hw; decide

theorem holds_of_decode8 {w : Word} {i : Instr} (ho : (fieldOp w).toNat = 0x8)
    (h : decode8 (fieldX w) (fieldY w) (fieldN w) = some i) : (rowOf i).holds w = true := by
  unfold decode8 at h
  split at h <;> cases h
  all_goals next hn => exact OpcodeRow.holds_of_fieldN ho hn rfl rfl

theorem holds_of_decodeE {w : Word} {i : Instr} (ho : (fieldOp w).toNat = 0xE)
    (h : decodeE (fieldX w) (fieldKk w) = some i) : (rowOf i).holds w = true := by
  unfold decodeE at h
  split at h <;> cases h
  all_goals next hk => exact OpcodeRow.holds_of_fieldKk ho hk rfl rfl

theorem holds_of_decodeF {w : Word} {i : Instr} (ho : (fieldOp w).toNat = 0xF)
    (h : decodeF (fieldX w) (fieldKk w) = some i) : (rowOf i).holds w = true := by
  unfold decodeF at h
  split at h <;> cases h
  all_goals next hk => exact OpcodeRow.holds_of_fieldKk ho hk rfl rfl

/-- A word that decodes matches the row of its instruction.  The split is that of R101 on opClass: branch `h_k` is the one
of opClass k - 1. -/
theorem holds_of_decode {w : Word} {i : Instr} (h : decode w = some i) : (rowOf i).holds w = true := by
  unfold decode at h
  split at h
  case h_1 => exact holds_of_decode0 h
  case h_6 ho | h_10 ho =>
    split at h <;> cases h
    next hn => exact OpcodeRow.holds_of_fieldN ho (congrArg BitVec.toNat hn) rfl rfl
  case h_9 ho => exact holds_of_decode8 ho h
  case h_15 ho => exact holds_of_decodeE ho h
  case h_16 =>
    have ho : (fieldOp w).toNat = 0xF := by
      have := (fieldOp w).isLt
      simp only [imp_false] at *
      omega
    exact holds_of_decodeF ho h
  all_goals next ho => cases h; exact OpcodeRow.holds_of_fieldOp ho rfl rfl

/-! ### The opcode table -/

/-- Every instruction has its row in the table. -/
theorem rowOf_mem_opcodeTable (i : Instr) : rowOf i ∈ opcodeTable := by
  cases i <;> exact of_decide_eq_true rfl

theorem map_rowOf_decode_of_mem {r : OpcodeRow} {w : Word} (hr : r ∈ opcodeTable) (h : r.holds w = true) :
    (decode w).map rowOf = some r := by
  obtain ⟨j, -, rfl⟩ := List.mem_map.mp hr
  exact map_rowOf_decode_of_holds h

/-- Settles O4: a word of a row decodes into that row, so two rows of one word are the row of the one instruction it
decodes to. -/
theorem decodeFollowsTheOpcodeTable : Obligations.DecodeFollowsTheOpcodeTable :=
  ⟨rfl,
    fun _ _ hr h => Option.map_eq_some_iff.mp (map_rowOf_decode_of_mem hr h),
    fun _ i h => ⟨rowOf_mem_opcodeTable i, holds_of_decode h⟩,
    fun _ _ hr _ hq hrw hqw =>
      Option.some.inj ((map_rowOf_decode_of_mem hr hrw).symm.trans (map_rowOf_decode_of_mem hq hqw))⟩

end Sys2Proof
end

section
/-! PROOFS. Control flow (41_control_flow.md R140 to R146): return, jump, call and the four register skips. -/

namespace Sys2Proof.Machine

/-! ### What a change of PC, or of PC and the call stack, leaves unchanged -/

/-- A jump changes PC only. -/
theorem State.regFrame_goto (s : State) (w : Word) : RegFrame [] s (s.goto w) :=
  ⟨fun _ _ => rfl, rfl, ⟨rfl, rfl⟩, ⟨rfl, rfl⟩, ⟨rfl, rfl⟩, ⟨rfl, rfl, rfl, rfl⟩, fun _ => rfl⟩

/-- A skip is a jump to one of two addresses, so it changes PC only. -/
theorem State.regFrame_skipIf (s : State) (c : Bool) : RegFrame [] s (s.skipIf c) := by
  cases c with
  | true => exact s.regFrame_goto (s.pc + 4#16)
  | false => exact s.regFrame_goto (s.pc + 2#16)

/-- The frame of an instruction that changes at most the call stack, SP and PC. -/
def StackFrame (s t : State) : Prop :=
  RegsSameBut [] s t ∧ t.i = s.i ∧ TimersSame s t ∧ ScreenSame s t ∧ EnvSame s t ∧ MemSame s t

/-- A stack update followed by a jump stays within that frame. -/
theorem State.stackFrame_goto (s : State) (l : List Word) (n : Nat) (w : Word) :
    StackFrame s (State.goto { s with stack := l, sp := n } w) :=
  ⟨fun _ _ => rfl, rfl, ⟨rfl, rfl⟩, ⟨rfl, rfl⟩, ⟨rfl, rfl, rfl, rfl⟩, fun _ => rfl⟩

theorem State.stackFrame_pop (s : State) : StackFrame s (s.drop.goto s.top) :=
  s.stackFrame_goto s.stack (s.sp - 1) s.top

theorem State.stackFrame_push (s : State) (r w : Word) : StackFrame s ((s.push r).goto w) :=
  s.stackFrame_goto (stackSet s.stack s.sp r) (s.sp + 1) w

/-! ### What the operands of jumps and skips come to -/

theorem zextAddr_toNat (a : Addr12) : (zextAddr a).toNat = a.toNat :=
  BitVec.toNat_setWidth_of_le (by decide)

theorem State.skipIf_decide_pc (s : State) (p : Prop) [Decidable p] :
    (s.skipIf (decide p)).pc = if p then s.pc + 4#16 else s.pc + 2#16 := by
  simp only [State.skipIf_pc, decide_eq_true_eq]

theorem State.skipIf_decide_not_pc (s : State) (p : Prop) [Decidable p] [Decidable (¬ p)] :
    (s.skipIf (decide (¬ p))).pc = if p then s.pc + 2#16 else s.pc + 4#16 := by
  rw [State.skipIf_decide_pc]
  by_cases h : p
  · rw [if_neg (not_not_intro h), if_pos h]
  · rw [if_pos h, if_neg h]

/-! ### Return and call, by the state of the stack -/

theorem exec_ret_of_sp_ne_zero {s : State} (h : s.sp ≠ 0) : exec .ret s = .next (s.drop.goto s.top) := if_neg h

theorem exec_ret_of_sp_eq_zero {s : State} (h : s.sp = 0) : exec .ret s = .next (s.halt (.stackUnderflow s.pc 0)) :=
  if_pos h

theorem exec_call_of_sp_lt {s : State} (a : Addr12) (h : s.sp < Config.stackDepth) :
    exec (.call a) s = .next ((s.push (s.pc + 2#16)).goto (zextAddr a)) := if_pos h

theorem exec_call_of_le_sp {s : State} (a : Addr12) (h : Config.stackDepth ≤ s.sp) :
    exec (.call a) s = .next (s.halt (.stackOverflow s.pc s.sp)) := if_neg (Nat.not_lt.mpr h)

/-- An entry of the stack after a push (R142). -/
theorem State.stackGet_push (s : State) (w : Word) (j : Nat) :
    stackGet (s.push w).stack j = if j = s.sp then w else stackGet s.stack j :=
  stackGet_stackSet s.stack s.sp j w

/-! ### The obligations -/

/-- Settles O27: a pop moves SP and leaves every stored entry; on an empty stack the fault halts and changes RUN only. -/
theorem returnPopsPc : Obligations.ReturnPopsPc := fun s =>
  ⟨fun h => ⟨s.drop.goto s.top, exec_ret_of_sp_ne_zero h, rfl, rfl, fun _ _ => rfl, s.stackFrame_pop⟩,
    exec_ret_of_sp_eq_zero⟩

/-- Settles O28: a jump, to the address read as a word. -/
theorem jumpLoadsPc : Obligations.JumpLoadsPc := fun a s =>
  ⟨s.goto (zextAddr a), rfl, zextAddr_toNat a, s.regFrame_goto (zextAddr a)⟩

/-- Settles O29: the entry that a push writes is the one at SP, so those below SP stay. -/
theorem callPushesTheReturnAddress : Obligations.CallPushesTheReturnAddress := by
  intro a s
  refine ⟨fun h => ⟨(s.push (s.pc + 2#16)).goto (zextAddr a), exec_call_of_sp_lt a h, zextAddr_toNat a, rfl, ?_, ?_,
    s.stackFrame_push (s.pc + 2#16) (zextAddr a)⟩, fun h => exec_call_of_le_sp a h.ge⟩
  · rw [State.goto_stack, State.stackGet_push, if_pos rfl]
  · intro j hj
    rw [State.goto_stack, State.stackGet_push, if_neg hj.ne]

/-- Settles O31: SE skips on the condition and SNE on its negation. -/
theorem registerSkips : Obligations.RegisterSkips := fun x y kk s =>
  ⟨⟨_, rfl, s.skipIf_decide_pc (s.reg x = kk), s.regFrame_skipIf _⟩,
    ⟨_, rfl, s.skipIf_decide_not_pc (s.reg x = kk), s.regFrame_skipIf _⟩,
    ⟨_, rfl, s.skipIf_decide_pc (s.reg x = s.reg y), s.regFrame_skipIf _⟩,
    ⟨_, rfl, s.skipIf_decide_not_pc (s.reg x = s.reg y), s.regFrame_skipIf _⟩⟩

end Sys2Proof.Machine
end

section
/-! PROOFS. Loads and arithmetic (42_alu.md R160 to R174): immediate and register loads, the bitwise operations, the five
flag-writing operations, and the random byte. -/

namespace Sys2Proof.Machine

/-! ### What an update leaves unchanged -/

/-- Moving on to the next instruction changes PC only. -/
theorem RegFrame.seq {ds : List Reg} {s t : State} (h : RegFrame ds s t) : RegFrame ds s t.seq := h

/-- The count of drawn bytes (log 9) is outside every frame. -/
theorem RegFrame.drew {ds : List Reg} {s t : State} (h : RegFrame ds s t) : RegFrame ds s t.drew := h

theorem State.regFrame_setV (s : State) (x : Reg) (b : Byte) : RegFrame [x] s (s.setV x b) := by
  refine ⟨fun j hj => ?_, rfl, ⟨rfl, rfl⟩, ⟨rfl, rfl⟩, ⟨rfl, rfl⟩, ⟨rfl, rfl, rfl, rfl⟩, fun _ => rfl⟩
  rw [State.reg_setV, if_neg (List.ne_of_not_mem_cons hj)]

/-- A result and its flag change V[x] and VF only, whichever of its two forms the write takes (R161). -/
theorem State.regFrame_setResult (s : State) (x : Reg) (r : Byte) (c : Bool) :
    RegFrame [x, 0xF#4] s (s.setResult x r c) := by
  refine ⟨fun j hj => ?_, by simp, ⟨by simp, by simp⟩, ⟨by simp, by simp⟩, ⟨by simp, by simp⟩,
    ⟨by simp, by simp, by simp, by simp⟩, fun a => by rw [State.setResult_mem]⟩
  exact s.reg_setResult_other x j r c (List.ne_of_not_mem_cons hj)
    (List.ne_of_not_mem_cons (List.not_mem_of_not_mem_cons hj))

/-! ### What an update writes -/

theorem State.reg_setV_same (s : State) (x : Reg) (b : Byte) : (s.setV x b).reg x = b := by
  rw [State.reg_setV, if_pos rfl]

/-- A plain write of V[x]: what it writes, where PC goes, and its frame (R162 to R167). -/
theorem State.setV_seq_spec (s : State) (x : Reg) (b : Byte) :
    (s.setV x b).seq.reg x = b ∧ (s.setV x b).seq.pc = s.pc + 2#16 ∧ RegFrame [x] s (s.setV x b).seq :=
  ⟨s.reg_setV_same x b, rfl, (s.regFrame_setV x b).seq⟩

theorem State.setResult_seq_pc (s : State) (x : Reg) (r : Byte) (c : Bool) :
    (s.setResult x r c).seq.pc = s.pc + 2#16 := by
  rw [State.seq_pc, State.setResult_pc]

theorem State.reg_setResult_same (s : State) {x : Reg} (r : Byte) (c : Bool) (hx : x ≠ 0xF#4) :
    (s.setResult x r c).reg x = r := by
  rw [s.reg_setResult x x r c hx, if_neg (show x ≠ regF from hx), if_pos rfl]

theorem State.reg_setResult_flag (s : State) {x : Reg} (r : Byte) (c : Bool) (hx : x ≠ 0xF#4) :
    (s.setResult x r c).reg 0xF#4 = flagByte c := by
  exact (s.reg_setResult x regF r c hx).trans (if_pos rfl)

/-- An instruction that writes a result and its flag: it completes, whatever x is, and for x other than 0xF any relation
P of the result and the flag is one of V[x] and VF afterwards (R161). -/
theorem exec_setResult_spec {i : Instr} {s : State} {x : Reg} {r : Byte} {c : Bool} (P : Byte → Byte → Prop)
    (hexec : exec i s = .next (s.setResult x r c).seq) (hP : P r (flagByte c)) :
    ∃ t, exec i s = .next t ∧ t.pc = s.pc + 2#16 ∧ RegFrame [x, 0xF#4] s t ∧
      (x ≠ 0xF#4 → P (t.reg x) (t.reg 0xF#4)) := by
  refine ⟨_, hexec, s.setResult_seq_pc x r c, (s.regFrame_setResult x r c).seq, fun hx => ?_⟩
  rw [State.seq_reg, State.seq_reg, s.reg_setResult_same r c hx, s.reg_setResult_flag r c hx]
  exact hP

/-! ### The flags as numbers -/

theorem flagByte_decide_toNat (p : Prop) [Decidable p] : (flagByte (decide p)).toNat = if p then 1 else 0 := by
  by_cases h : p
  · rw [decide_eq_true h, if_pos h]; rfl
  · rw [decide_eq_false h, if_neg h]; rfl

theorem flagByte_toNat (c : Bool) : (flagByte c).toNat = c.toNat := by cases c <;> rfl

/-- The bit that a right shift drops (R170). -/
theorem flagByte_lowBit_toNat (a : Byte) : (flagByte (lowBit a)).toNat = a.toNat % 2 := by
  rw [flagByte_toNat, lowBit, BitVec.getLsbD, Nat.toNat_testBit, Nat.pow_zero, Nat.div_one]

/-- The bit that a left shift drops; nothing of a byte is above it (R172). -/
theorem flagByte_highBit_toNat (a : Byte) : (flagByte (highBit a)).toNat = a.toNat / 128 := by
  rw [flagByte_toNat, highBit, BitVec.getLsbD, Nat.toNat_testBit]
  have := a.isLt
  omega

/-! ### The results as numbers -/

/-- Subtraction modulo 256 as integers: the true difference is off by 256 exactly when there is a borrow (R169, R171). -/
theorem sub_toNat_cases (a b : Byte) :
    (b.toNat ≤ a.toNat ∧ ((a - b).toNat : Int) = a.toNat - b.toNat) ∨
    (a.toNat < b.toNat ∧ ((a - b).toNat : Int) = a.toNat - b.toNat + 256) := by
  have := a.isLt
  have := b.isLt
  rw [BitVec.toNat_sub]
  omega

/-- A relation of a difference d and a flag f to the operands a and b: d is a - b modulo 256, f is "no borrow", and the
two give back the integer difference (R174). -/
def IsDifference (a b d f : Byte) : Prop :=
  (d.toNat : Int) = ((a.toNat : Int) - b.toNat) % 256 ∧
    (f.toNat = if b.toNat ≤ a.toNat then 1 else 0) ∧
    (a.toNat : Int) - b.toNat = d.toNat - 256 * (1 - (f.toNat : Int))

theorem isDifference_sub (a b : Byte) : IsDifference a b (a - b) (flagByte (noBorrow a b)) := by
  have hflag : (flagByte (noBorrow a b)).toNat = if b.toNat ≤ a.toNat then 1 else 0 := flagByte_decide_toNat _
  rcases sub_toNat_cases a b with ⟨hle, h⟩ | ⟨hlt, h⟩
  · refine ⟨by omega, hflag, ?_⟩
    rw [hflag, if_pos hle]; omega
  · refine ⟨by omega, hflag, ?_⟩
    rw [hflag, if_neg (Nat.not_le.mpr hlt)]; omega

theorem ushiftRight_one_toNat (a : Byte) : (a >>> 1).toNat = a.toNat / 2 := by
  rw [BitVec.toNat_ushiftRight, Nat.shiftRight_eq_div_pow, Nat.pow_one]

theorem shiftLeft_one_toNat (a : Byte) : (a <<< 1).toNat = a.toNat * 2 % 256 := by
  rw [BitVec.toNat_shiftLeft, Nat.shiftLeft_eq, Nat.pow_one]

/-! ### The obligations -/

/-- Settles O35: the sum of bytes is the sum modulo 256, and its carry-out is the test of the integer sum against 255. -/
theorem addSetsCarry : Obligations.AddSetsCarry := fun x y s =>
  exec_setResult_spec (fun r f => r.toNat = ((s.reg x).toNat + (s.reg y).toNat) % 256 ∧
      f.toNat = if 255 < (s.reg x).toNat + (s.reg y).toNat then 1 else 0)
    rfl ⟨BitVec.toNat_add _ _, flagByte_decide_toNat _⟩

/-- Settles O36: SUBN is SUB with the operands exchanged. -/
theorem subtractSetsNoBorrow : Obligations.SubtractSetsNoBorrow := fun x y s =>
  ⟨exec_setResult_spec (IsDifference (s.reg x) (s.reg y)) rfl (isDifference_sub _ _),
    exec_setResult_spec (IsDifference (s.reg y) (s.reg x)) rfl (isDifference_sub _ _)⟩

/-- Settles O37: each shift is a division or a product by two, and the flag is what that drops. -/
theorem shiftsMoveOneBit : Obligations.ShiftsMoveOneBit := fun x _ s =>
  ⟨exec_setResult_spec (fun r f => r.toNat = (s.reg x).toNat / 2 ∧ f.toNat = (s.reg x).toNat % 2)
      rfl ⟨ushiftRight_one_toNat _, flagByte_lowBit_toNat _⟩,
    exec_setResult_spec (fun r f => r.toNat = (s.reg x).toNat * 2 % 256 ∧ f.toNat = (s.reg x).toNat / 128)
      rfl ⟨shiftLeft_one_toNat _, flagByte_highBit_toNat _⟩⟩

/-- Settles O33: two plain writes of V[x]; the sum of bytes is the sum modulo 256. -/
theorem immediateLoadAndAdd : Obligations.ImmediateLoadAndAdd := by
  intro x kk s
  obtain ⟨hreg, hpc, hframe⟩ := s.setV_seq_spec x (s.reg x + kk)
  refine ⟨⟨_, rfl, s.setV_seq_spec x kk⟩, ⟨_, rfl, ?_, hpc, hframe⟩⟩
  rw [hreg, BitVec.toNat_add]

/-- Settles O34: four plain writes of V[x]. -/
theorem copyAndBitwise : Obligations.CopyAndBitwise := fun x _ s =>
  ⟨⟨_, rfl, s.setV_seq_spec x _⟩, ⟨_, rfl, s.setV_seq_spec x _⟩, ⟨_, rfl, s.setV_seq_spec x _⟩,
    ⟨_, rfl, s.setV_seq_spec x _⟩⟩

/-- Settles O38: the three laws of the mask are those of bitwise AND with a byte of which nothing is known. -/
theorem randomByteIsMasked : Obligations.RandomByteIsMasked := by
  intro x kk s
  have hreg : ((s.setV x (Config.drawByte s.draws &&& kk)).drew.seq).reg x = Config.drawByte s.draws &&& kk :=
    s.reg_setV_same x _
  refine ⟨_, rfl, hreg, fun j hj => ?_, fun hkk => ?_, fun hkk => ?_, rfl, (s.regFrame_setV x _).drew.seq⟩
  · rw [hreg, BitVec.getLsbD_and, hj, Bool.and_false]
  · rw [hreg, hkk, BitVec.and_zero]
  · rw [hreg, hkk]; exact BitVec.and_allOnes

end Sys2Proof.Machine
end

section
/-! PROOFS. Index loads (43_index_memory.md R190, R192): the address in LD I and the glyph address in LD F. -/

namespace Sys2Proof.Machine

/-! ### What a change of I leaves unchanged -/

/-- The frame of an instruction that changes at most I and PC. -/
def IndexFrame (s t : State) : Prop :=
  RegsSameBut [] s t ∧ StackSame s t ∧ TimersSame s t ∧ ScreenSame s t ∧ EnvSame s t ∧ MemSame s t

theorem State.indexFrame_setI_seq (s : State) (w : Word) : IndexFrame s (s.setI w).seq :=
  ⟨fun _ _ => rfl, ⟨rfl, rfl⟩, ⟨rfl, rfl⟩, ⟨rfl, rfl⟩, ⟨rfl, rfl, rfl, rfl⟩, fun _ => rfl⟩

/-- An instruction that writes I: it completes with I the number n that the written word stands for. -/
theorem exec_setI_spec {i : Instr} {s : State} {w : Word} {n : Nat} (hexec : exec i s = .next (s.setI w).seq)
    (hw : w.toNat = n) : ∃ t, exec i s = .next t ∧ t.i.toNat = n ∧ t.pc = s.pc + 2#16 ∧ IndexFrame s t :=
  ⟨(s.setI w).seq, hexec, hw, rfl, s.indexFrame_setI_seq w⟩

/-! ### The operands as numbers -/

theorem zextByte_toNat (b : Byte) : (zextByte b).toNat = b.toNat := BitVec.toNat_setWidth_of_le (by decide)

/-- The product by 5 does not wrap at 16 bits: it is at most 255 * 5. -/
theorem glyphAddr_toNat (b : Byte) : (glyphAddr b).toNat = b.toNat * 5 := by
  have hlt : b.toNat * 5 < 2 ^ 16 := by omega
  calc (glyphAddr b).toNat
      = (zextByte b).toNat * 5 % 2 ^ 16 := BitVec.toNat_mul _ _
    _ = b.toNat * 5 % 2 ^ 16 := by rw [zextByte_toNat]
    _ = b.toNat * 5 := Nat.mod_eq_of_lt hlt

/-! ### The obligation -/

/-- Settles O39: two plain writes of I, one of the address read as a word, one of the glyph address, which does not wrap. -/
theorem indexLoads : Obligations.IndexLoads := fun a x s =>
  ⟨exec_setI_spec rfl (zextAddr_toNat a), exec_setI_spec rfl (glyphAddr_toNat (s.reg x))⟩

end Sys2Proof.Machine
end

section
/-! PROOFS. Clearing the screen (44_display.md R210). -/

namespace Sys2Proof.Machine

/-! ### What a change of the framebuffer leaves unchanged -/

/-- The frame of an instruction that changes at most FB, DIRTY, the registers ds and PC. -/
def DisplayFrame (ds : List Reg) (s t : State) : Prop :=
  RegsSameBut ds s t ∧ t.i = s.i ∧ StackSame s t ∧ TimersSame s t ∧ EnvSame s t ∧ MemSame s t

/-- Writing any framebuffer and moving on changes no register. -/
theorem State.displayFrame_setFrame_seq (s : State) (f : Frame) : DisplayFrame [] s (s.setFrame f).seq :=
  ⟨fun _ _ => rfl, rfl, ⟨rfl, rfl⟩, ⟨rfl, rfl⟩, ⟨rfl, rfl, rfl, rfl⟩, fun _ => rfl⟩

/-! ### The obligation -/

/-- Settles O46: the framebuffer that CLS writes is the blank one, whatever FB held. -/
theorem clearScreen : Obligations.ClearScreen := fun s =>
  ⟨(s.setFrame blankFrame).seq, rfl, pixel_blank, rfl, rfl, s.displayFrame_setFrame_seq blankFrame⟩

end Sys2Proof.Machine
end

section
/-! PROOFS. Timer access (46_timers.md R230 to R232): reading the delay timer into a register, and setting either timer. -/

namespace Sys2Proof.Machine

/-! ### What a change of the timers leaves unchanged -/

/-- The frame of an instruction that changes at most DT, ST and PC. -/
def TimerFrame (s t : State) : Prop :=
  RegsSameBut [] s t ∧ t.i = s.i ∧ StackSame s t ∧ ScreenSame s t ∧ EnvSame s t ∧ MemSame s t

/-- Writing both timers and moving on stays within that frame. -/
theorem State.timerFrame_seq (s : State) (d b : Byte) : TimerFrame s (State.seq { s with dt := d, st := b }) :=
  ⟨fun _ _ => rfl, rfl, ⟨rfl, rfl⟩, ⟨rfl, rfl⟩, ⟨rfl, rfl, rfl, rfl⟩, fun _ => rfl⟩

/-! ### What a write of one timer does -/

/-- A write of DT: what it writes, that ST stays, where PC goes, and its frame (R231). -/
theorem State.setDt_seq_spec (s : State) (b : Byte) :
    (s.setDt b).seq.dt = b ∧ (s.setDt b).seq.st = s.st ∧ (s.setDt b).seq.pc = s.pc + 2#16 ∧
      TimerFrame s (s.setDt b).seq :=
  ⟨rfl, rfl, rfl, s.timerFrame_seq b s.st⟩

/-- A write of ST: what it writes, that DT stays, where PC goes, and its frame (R232). -/
theorem State.setSt_seq_spec (s : State) (b : Byte) :
    (s.setSt b).seq.st = b ∧ (s.setSt b).seq.dt = s.dt ∧ (s.setSt b).seq.pc = s.pc + 2#16 ∧
      TimerFrame s (s.setSt b).seq :=
  ⟨rfl, rfl, rfl, s.timerFrame_seq s.dt b⟩

/-! ### The obligation -/

/-- Settles O52: a plain write of V[x] with DT, and a write of each timer with V[x]. -/
theorem timerAccess : Obligations.TimerAccess := fun x s =>
  ⟨⟨_, rfl, s.setV_seq_spec x s.dt⟩, ⟨_, rfl, s.setDt_seq_spec (s.reg x)⟩, ⟨_, rfl, s.setSt_seq_spec (s.reg x)⟩⟩

end Sys2Proof.Machine
end

section
/-! PROOFS. Environment events (60_exceptions.md R252, R256): the keypad refresh is the only writer of KEYS, and what a tick
does. -/

namespace Sys2Proof.Machine

/-! ### No instruction writes KEYS -/

theorem storeAtI_keys (bs : List Byte) (s : State) : ∃ t, storeAtI bs s = .next t ∧ t.keys = s.keys := by
  rcases storeAtI_cases bs s with ⟨-, he⟩ | ⟨-, -, he⟩ <;> exact ⟨_, he, rfl⟩

theorem skipByKey_keys (x : Reg) (d : Bool) (s : State) : ∃ t, skipByKey x d s = .next t ∧ t.keys = s.keys := by
  rcases skipByKey_cases x d s with ⟨_, he⟩ | ⟨-, he⟩
  · exact ⟨_, he, State.skipIf_keys s _⟩
  · exact ⟨_, he, rfl⟩

theorem execLdXK_keys (x : Reg) (s : State) : ∃ t, execLdXK x s = .next t ∧ t.keys = s.keys := by
  unfold execLdXK
  split <;> exact ⟨_, rfl, rfl⟩

/-- Every instruction leaves KEYS as the last refresh set it, also where it faults (R29, R252). -/
theorem exec_keys (i : Instr) (s : State) : ∃ t, exec i s = .next t ∧ t.keys = s.keys := by
  cases i
  case ret =>
    by_cases h : s.sp = 0
    · exact ⟨_, exec_ret_of_sp_eq_zero h, rfl⟩
    · exact ⟨_, exec_ret_of_sp_ne_zero h, rfl⟩
  case call a =>
    rcases Nat.lt_or_ge s.sp Config.stackDepth with h | h
    · exact ⟨_, exec_call_of_sp_lt a h, rfl⟩
    · exact ⟨_, exec_call_of_le_sp a h, rfl⟩
  case drw x y n => rcases execDrw_cases x y n s with ⟨-, he⟩ | ⟨-, -, he⟩ <;> exact ⟨_, he, rfl⟩
  case ldXMem x => rcases execLdXMem_cases x s with ⟨-, he⟩ | ⟨-, he⟩ <;> exact ⟨_, he, rfl⟩
  case ldB | ldMemX => exact storeAtI_keys _ s
  case skp | sknp => exact skipByKey_keys _ _ s
  case ldXK x => exact execLdXK_keys x s
  case seKk | sneKk | seXy | sneXy => exact ⟨_, rfl, State.skipIf_keys s _⟩
  case addXy | subXy | shrX | subnXy | shlX => exact ⟨_, rfl, State.setResult_keys s _ _ _⟩
  all_goals exact ⟨_, rfl, rfl⟩

theorem instrStep_keys {s t : State} (h : instrStep s = .next t) : t.keys = s.keys := by
  have hkeep : ∃ u, instrStep s = .next u ∧ u.keys = s.keys := by
    rcases instrStep_cases s with ⟨i, -, -, he⟩ | ⟨-, -, he⟩ | ⟨-, he⟩
    · rw [he]; exact exec_keys i s
    · exact ⟨_, he, rfl⟩
    · exact ⟨_, he, rfl⟩
  obtain ⟨u, hu, hkeys⟩ := hkeep
  obtain rfl : u = t := Host.Outcome.next.inj (hu.symm.trans h)
  exact hkeys

/-! ### No other event writes KEYS -/

theorem account_keys (c : Nat) (s : State) : (account c s).keys = s.keys := by
  cases hr : s.run with
  | halted r => rw [account_halted hr]
  | running => rw [account_running hr]; split <;> rfl

/-- A step leaves KEYS alone unless it is a keypad refresh (R252). -/
theorem step_keys {s t : State} (h : step s = .next t) :
    t.keys = s.keys ∨ ∃ k rest, s.inputs = .keysIn k :: rest ∧ t.keys = k := by
  obtain ⟨hr, ⟨hi, -⟩ | ⟨k, rest, hin, rfl⟩ | ⟨rest, -, rfl⟩ | ⟨rest, -, rfl⟩ | ⟨rest, u, -, hu, rfl⟩⟩ := step_cases h
  · exact .inl (instrStep_keys (s := s.setInputs s.inputs.tail) hi)
  · exact .inr ⟨k, rest, hin, rfl⟩
  · exact .inl (by rw [tick_running (s := s.setInputs rest) hr]; rfl)
  · exact .inl rfl
  · exact .inl ((account_keys _ u).trans (instrStep_keys (s := s.setInputs rest) hu))

/-! ### The two events, as steps -/

theorem step_keysIn {s : State} {k : Keys} {rest : List Input} (hr : s.run = .running) (hi : s.inputs = .keysIn k :: rest) :
    step s = .next ((s.setInputs rest).setKeys k) := by
  rw [step_event hr hi, perform, refreshKeys, whenRunning_running (s := s.setInputs rest) hr]

theorem step_tickIn {s : State} {rest : List Input} (hr : s.run = .running) (hi : s.inputs = .tickIn :: rest) :
    step s = .next { s with dt := timerDown s.dt, st := timerDown s.st, dirty := false, inputs := rest } := by
  rw [step_event hr hi, perform, tick_running (s := s.setInputs rest) hr]; rfl

/-! ### The obligations -/

/-- Settles O20: of the kinds of step only the refresh differs from its start in KEYS. -/
theorem keypadRefreshIsTheOnlyWriterOfKeys : Obligations.KeypadRefreshIsTheOnlyWriterOfKeys :=
  ⟨fun _ _ _ hr hi => step_keysIn hr hi, fun _ _ h hne => (step_keys h).resolve_left hne⟩

/-- Settles O21: the tick's countdown as subtraction of naturals, and its display present on the framebuffer as it was. -/
theorem tickCountsDownAndPresents : Obligations.TickCountsDownAndPresents := fun s rest hr hi =>
  ⟨_, step_tickIn hr hi, timerDown_toNat s.dt, timerDown_toNat s.st, rfl,
    stepPresents_of_ticked (u := s.setInputs rest) (tickedFrom_tickIn hr hi) hr, rfl⟩

end Sys2Proof.Machine
end

section
/-! PROOFS. Decoding and encoding are inverse to each other (30_encoding.md R92, R100, R101), and which words are illegal
(R103, R105). -/

namespace Sys2Proof

/-! ### Encode, then decode -/

/-- Decoding undoes encoding: in each format the fields of the word are the operands that the encoder put there. -/
theorem decode_encode (i : Instr) : decode (encode i) = some i := by
  cases i <;> rw [encode, decode]
  case cls | ret => rfl
  case jp | call | ldI | jpV0 => rw [fieldOp_fmtNNN, fieldNnn_fmtNNN]; rfl
  case seKk | sneKk | ldKk | addKk | rnd | skp | sknp | ldXDt | ldXK | ldDtX | ldStX | addIX | ldF | ldB | ldMemX | ldXMem =>
    rw [fieldOp_fmtXKK, fieldX_fmtXKK, fieldKk_fmtXKK]; rfl
  case seXy | sneXy | ldXy | orXy | andXy | xorXy | addXy | subXy | shrX | subnXy | shlX | drw =>
    rw [fieldOp_fmtXYN, fieldX_fmtXYN, fieldY_fmtXYN, fieldN_fmtXYN]; rfl

/-- Two bytes that make up a legal word decode to its instruction, whatever follows them. -/
theorem decodeBytes_of_decode {hi lo : Byte} {i : Instr} (h : decode (wordOfBytes hi lo) = some i) (rest : List Byte) :
    decodeBytes (hi :: lo :: rest) = .instr i rest := by
  rw [decodeBytes, h]

/-- Settles O2: the two bytes of a word make up the word again, and decoding undoes encoding. -/
theorem decodeOfEncodeIsIdentity : Obligations.DecodeOfEncodeIsIdentity := fun i rest =>
  decodeBytes_of_decode (by rw [wordOfBytes_bytes, decode_encode]) rest

/-! ### Decode, then encode -/

/-- Encoding undoes decoding.  The row of the decoded instruction fixes what R101 branches on, so the operands are the
fields of the word, and a word is put together from its fields. -/
theorem encode_of_decode {w : Word} {i : Instr} (h : decode w = some i) : encode i = w := by
  have hrow := holds_of_decode h
  have hop := fieldOp_eq_of_holds hrow
  cases i <;> dsimp only [rowOf] at hrow hop
  case cls | ret => exact (OpcodeRow.eq_bits_of_holds hrow rfl).symm
  case jp | call | ldI | jpV0 =>
    rw [decode, hop] at h
    cases h
    refine Eq.trans ?_ (fmtNNN_fields w)
    rw [hop]; rfl
  case seKk | sneKk | ldKk | addKk | rnd =>
    rw [decode, hop] at h
    cases h
    refine Eq.trans ?_ (fmtXKK_fields w)
    rw [hop]; rfl
  case drw =>
    rw [decode, hop] at h
    cases h
    refine Eq.trans ?_ (fmtXYN_fields w)
    rw [hop]; rfl
  case skp | sknp | ldXDt | ldXK | ldDtX | ldStX | addIX | ldF | ldB | ldMemX | ldXMem =>
    have hkk := fieldKk_eq_of_holds hrow rfl
    rw [decode, hop, hkk] at h
    cases h
    refine Eq.trans ?_ (fmtXKK_fields w)
    rw [hop, hkk]; rfl
  case seXy | sneXy | ldXy | orXy | andXy | xorXy | addXy | subXy | shrX | subnXy | shlX =>
    have hn := fieldN_eq_of_holds hrow rfl
    rw [decode, hop, hn] at h
    cases h
    refine Eq.trans ?_ (fmtXYN_fields w)
    rw [hop, hn]; rfl

/-- Settles O3: every bit of a legal word is fixed by its row or held in an operand. -/
theorem encodeOfDecodeIsIdentity : Obligations.EncodeOfDecodeIsIdentity := fun _ _ => encode_of_decode

/-- Settles O1: sixteen words written out, each decoded. -/
theorem specWordsDecode : Obligations.SpecWordsDecode := by
  unfold Obligations.SpecWordsDecode
  decide

/-! ### The illegal words (R103) -/

theorem decode0_eq_none_iff (w : Word) : decode0 w = none ↔ w ≠ 0x00E0#16 ∧ w ≠ 0x00EE#16 := by
  unfold decode0
  split
  next h => simp [h]
  next h => split <;> simp_all

theorem decode8_eq_none_iff (x y : Reg) (n : Nibble) :
    decode8 x y n = none ↔ n.toNat ∈ [0x8, 0x9, 0xA, 0xB, 0xC, 0xD, 0xF] := by
  have := n.isLt
  unfold decode8
  split
  case h_10 => simp only [imp_false] at *; simp only [List.mem_cons, List.not_mem_nil, or_false, true_iff]; omega
  all_goals next hn => simp [hn]

theorem decodeE_eq_none_iff (x : Reg) (kk : Byte) : decodeE x kk = none ↔ kk.toNat ∉ [0x9E, 0xA1] := by
  unfold decodeE
  split
  case h_3 => simp only [imp_false] at *; simp only [List.mem_cons, List.not_mem_nil, or_false, not_or, true_iff]; omega
  all_goals next hk => simp [hk]

theorem decodeF_eq_none_iff (x : Reg) (kk : Byte) :
    decodeF x kk = none ↔ kk.toNat ∉ [0x07, 0x0A, 0x15, 0x18, 0x1E, 0x29, 0x33, 0x55, 0x65] := by
  unfold decodeF
  split
  case h_10 => simp only [imp_false] at *; simp only [List.mem_cons, List.not_mem_nil, or_false, not_or, true_iff]; omega
  all_goals next hk => simp [hk]

/-- The list of R103, for a word as a number. -/
def IllegalWord (w : Word) : Prop :=
  (w.toNat ≤ 0x0FFF ∧ w ≠ 0x00E0#16 ∧ w ≠ 0x00EE#16) ∨
  ((w.toNat / 4096 = 0x5 ∨ w.toNat / 4096 = 0x9) ∧ w.toNat % 16 ≠ 0) ∨
  (w.toNat / 4096 = 0x8 ∧ w.toNat % 16 ∈ [0x8, 0x9, 0xA, 0xB, 0xC, 0xD, 0xF]) ∨
  (w.toNat / 4096 = 0xE ∧ w.toNat % 256 ∉ [0x9E, 0xA1]) ∨
  (w.toNat / 4096 = 0xF ∧ w.toNat % 256 ∉ [0x07, 0x0A, 0x15, 0x18, 0x1E, 0x29, 0x33, 0x55, 0x65])

/-- The split is that of R101 on opClass: branch `h_k` is the one of opClass k - 1. -/
theorem decode_eq_none_iff (w : Word) : decode w = none ↔ IllegalWord w := by
  have hw := w.isLt
  have hop : (fieldOp w).toNat = w.toNat / 4096 := by rw [fieldOp_toNat]; omega
  have hlow : w.toNat ≤ 0x0FFF ↔ w.toNat / 4096 = 0 := by omega
  unfold decode IllegalWord
  rw [hop, hlow]
  split
  case h_1 ho => simp [ho, decode0_eq_none_iff]
  case h_6 ho | h_10 ho => simp [ho, ← fieldN_toNat, BitVec.toNat_eq]
  case h_9 ho => rw [decode8_eq_none_iff, fieldN_toNat]; simp [ho]
  case h_15 ho => rw [decodeE_eq_none_iff, fieldKk_toNat]; simp [ho]
  case h_16 =>
    have ho : w.toNat / 4096 = 0xF := by simp only [imp_false] at *; omega
    rw [decodeF_eq_none_iff, fieldKk_toNat]; simp [ho]
  all_goals next ho => simp [ho]

/-! ### The count of the legal words (R105) -/

/-- A count over m * n numbers, by their quotient and remainder by n. -/
theorem countP_range_mul (p : Nat → Bool) (m n : Nat) :
    (List.range (m * n)).countP p = ((List.range m).map fun a => (List.range n).countP fun b => p (a * n + b)).sum := by
  induction m with
  | zero => simp
  | succ m ih =>
    rw [Nat.succ_mul, List.range_add, List.countP_append, ih, List.countP_map, List.range_succ, List.map_append,
      List.sum_append]
    simp [Function.comp_def]

/-- How many low bytes complete the high byte a to a legal word, by opClass (R103). -/
def legalLowBytes (a : Nat) : Nat :=
  match a / 16 with
  | 0x0 => if a = 0 then 2 else 0
  | 0x5 | 0x9 => 16
  | 0x8 => 144
  | 0xE => 2
  | 0xF => 9
  | _ => 256

/-- Whether the low byte b completes the high byte a to a legal word, by opClass (R103). -/
def completes (a b : Nat) : Bool :=
  match a / 16 with
  | 0x0 => decide (a = 0 ∧ (b = 0xE0 ∨ b = 0xEE))
  | 0x5 | 0x9 => decide (b % 16 = 0)
  | 0x8 => decide (b % 16 ∉ [0x8, 0x9, 0xA, 0xB, 0xC, 0xD, 0xF])
  | 0xE => decide (b ∈ [0x9E, 0xA1])
  | 0xF => decide (b ∈ [0x07, 0x0A, 0x15, 0x18, 0x1E, 0x29, 0x33, 0x55, 0x65])
  | _ => true

theorem isSome_decode_eq_completes {a b : Nat} (ha : a < 256) (hb : b < 256) :
    (decode (BitVec.ofNat 16 (a * 256 + b))).isSome = completes a b := by
  have hw : (BitVec.ofNat 16 (a * 256 + b)).toNat = a * 256 + b := by rw [BitVec.toNat_ofNat]; omega
  have h16 : (a * 256 + b) % 16 = b % 16 := by omega
  have h256 : (a * 256 + b) % 256 = b := by omega
  have hop : (a * 256 + b) / 4096 = a / 16 := by omega
  rw [Bool.eq_iff_iff, ← not_iff_not, Option.not_isSome_iff_eq_none, decode_eq_none_iff, IllegalWord]
  simp only [BitVec.toNat_eq, ne_eq, hw, h16, h256, hop, BitVec.toNat_ofNat, Nat.reducePow, Nat.reduceMod, List.mem_cons,
    List.not_mem_nil, or_false]
  unfold completes
  split
  case h_7 => simp only [imp_false, not_true_eq_false, iff_false] at *; omega
  all_goals simp only [decide_eq_true_eq, List.mem_cons, List.not_mem_nil, or_false]; omega

theorem countP_completes (a : Nat) : (List.range 256).countP (completes a) = legalLowBytes a := by
  unfold completes legalLowBytes
  split
  case h_1 =>
    by_cases ha : a = 0
    · subst ha; rw [countP_range_mul _ 16 16]; rfl
    · simp [ha]
  case h_7 => simp
  all_goals rw [countP_range_mul _ 16 16]; rfl

/-- How many legal words an opClass has: 16 high bytes, each with its low bytes (R105). -/
theorem countP_legal_opClass {o : Nat} (ho : o < 16) :
    ((List.range 4096).countP fun k => (decode (BitVec.ofNat 16 (o * 4096 + k))).isSome) =
      ((List.range 16).map fun x => legalLowBytes (o * 16 + x)).sum := by
  rw [countP_range_mul _ 16 256]
  refine congrArg List.sum (List.map_congr_left fun x hx => ?_)
  rw [List.mem_range] at hx
  rw [← countP_completes]
  refine List.countP_congr fun b hb => ?_
  rw [← isSome_decode_eq_completes (by omega) (List.mem_range.mp hb),
    show o * 4096 + (x * 256 + b) = (o * 16 + x) * 256 + b by omega]

/-- Settles O6, by a count over the 16 opClasses. -/
theorem legalWordCount : Obligations.LegalWordCount := by
  unfold Obligations.LegalWordCount
  rw [← List.countP_eq_length_filter, countP_range_mul _ 16 4096,
    List.map_congr_left fun o ho => countP_legal_opClass (List.mem_range.mp ho)]
  rfl

end Sys2Proof
end

section
/-! PROOFS. The instruction step (40_cycle.md R121 to R128): it runs the decoded instruction, or halts on a fetch or decode
fault, however the step comes to be taken. -/

namespace Sys2Proof.Machine

/-! ### The instruction step, by what the fetch finds -/

theorem instrStep_of_decode_some {s : State} {i : Instr} (hpc : s.pc.toNat + 1 < 0x1000)
    (hd : decode (wordOfBytes (Mem.read s.mem s.pc.toNat) (Mem.read s.mem (s.pc.toNat + 1))) = some i) :
    instrStep s = exec i s := by
  have hfetch : fetch s = .ok _ := (fetch_cases s).resolve_right (fun h => Nat.not_lt.mpr h.1 hpc) |>.2
  rw [instrStep, hfetch]
  simp only [hd]

theorem instrStep_of_decode_none {s : State} (hpc : s.pc.toNat + 1 < 0x1000)
    (hd : decode (wordOfBytes (Mem.read s.mem s.pc.toNat) (Mem.read s.mem (s.pc.toNat + 1))) = none) :
    instrStep s = .next (s.halt (.decodeFault s.pc
      (wordOfBytes (Mem.read s.mem s.pc.toNat) (Mem.read s.mem (s.pc.toNat + 1))))) := by
  have hfetch : fetch s = .ok _ := (fetch_cases s).resolve_right (fun h => Nat.not_lt.mpr h.1 hpc) |>.2
  rw [instrStep, hfetch]
  simp only [hd]; rfl

theorem instrStep_of_fetch_outside {s : State} (hpc : 0x0FFF ≤ s.pc.toNat) :
    instrStep s = .next (s.halt (.addressFault s.pc (max s.pc.toNat 0x1000))) := by
  have hfetch : fetch s = .error _ := (fetch_cases s).resolve_left (fun h => absurd h.1 (by rw [memSize_eq]; omega)) |>.2
  rw [instrStep, hfetch]; rfl

/-! ### The step, by the event that is next -/

theorem step_stepIn {s : State} {rest : List Input} (hr : s.run = .running) (hi : s.inputs = .stepIn :: rest) :
    step s = instrStep (s.setInputs rest) := step_event hr hi

theorem step_pacedIn {s u : State} {rest : List Input} (hr : s.run = .running) (hi : s.inputs = .pacedIn :: rest)
    (hu : instrStep (s.setInputs rest) = .next u) : step s = .next (account Config.clockHz u) := by
  rw [step_event hr hi, perform, pacedStep, hu]

theorem step_quitIn {s : State} {rest : List Input} (hr : s.run = .running) (hi : s.inputs = .quitIn :: rest) :
    step s = .next ((s.setInputs rest).halt .quit) := by
  rw [step_event hr hi, perform, quit, whenRunning_running (s := s.setInputs rest) hr]

/-- An instruction step that only halts, whatever events wait, does so when it is taken by step_in and when no event waits. -/
theorem step_halts_of_instrStep_halts {s : State} {r : HaltReason}
    (h : ∀ l, instrStep (s.setInputs l) = .next ((s.setInputs l).halt r)) :
    instrStep s = .next { s with run := .halted r } ∧
    (s.run = .running → s.inputs = [] → step s = .next { s with run := .halted r }) ∧
    (∀ rest, s.run = .running → s.inputs = .stepIn :: rest → step s = .next { s with run := .halted r, inputs := rest }) :=
  ⟨h s.inputs, fun hr hi => (step_free hr hi).trans (h s.inputs), fun rest hr hi => (step_stepIn hr hi).trans (h rest)⟩

/-! ### The obligations -/

/-- Settles O5: the list of illegal words, and the decode fault that one of them raises. -/
theorem illegalWordsAreExactlyThese : Obligations.IllegalWordsAreExactlyThese := by
  refine ⟨decode_eq_none_iff, fun s w hpc hw hd => ?_⟩
  subst hw
  exact step_halts_of_instrStep_halts fun l => instrStep_of_decode_none (s := s.setInputs l) hpc hd

/-- Settles O8: the first address outside memory is the greater of PC and 0x1000. -/
theorem fetchOutsideMemoryHalts : Obligations.FetchOutsideMemoryHalts := by
  intro s r hpc hr
  have hmax : max s.pc.toNat 0x1000 = if 0x1000 ≤ s.pc.toNat then s.pc.toNat else 0x1000 := by split <;> omega
  rw [← hmax] at hr
  subst hr
  exact step_halts_of_instrStep_halts fun l => instrStep_of_fetch_outside (s := s.setInputs l) hpc

/-- Settles O7: the fetch and the decoding do not look at the waiting events. -/
theorem stepRunsTheDecodedInstruction : Obligations.StepRunsTheDecodedInstruction := by
  intro s i hpc hd
  have hstep (l : List Input) : instrStep (s.setInputs l) = exec i (s.setInputs l) :=
    instrStep_of_decode_some (s := s.setInputs l) hpc hd
  refine ⟨hstep s.inputs, fun hr hi => (step_free hr hi).trans (hstep s.inputs),
    fun rest hr hi => (step_stepIn hr hi).trans (hstep rest), fun rest hr hi => ?_⟩
  obtain ⟨u, hu, -⟩ := exec_keys i (s.setInputs rest)
  exact ⟨u, hu, step_pacedIn hr hi ((hstep rest).trans hu)⟩

/-- Settles O9: RUN is looked at before the events. -/
theorem haltedBlockTakesNoStep : Obligations.HaltedBlockTakesNoStep := fun _ _ => step_halted

/-- Settles O24: the quit is the event that `halt` alone makes up. -/
theorem quitHaltsBetweenSteps : Obligations.QuitHaltsBetweenSteps := fun _ _ hr hi =>
  ⟨_, step_quitIn hr hi, rfl, rfl⟩

end Sys2Proof.Machine
end

section
/-! PROOFS. What executing an instruction does (40_cycle.md R123 to R126, 60_exceptions.md R244): it raises the one fault that
`faultOf` says, which halts and changes nothing else, or it completes in the state that `completed` says. -/

namespace Sys2Proof.Machine

/-! ### An execution faults or completes -/

/-- The fault that executing an instruction raises, if it raises one (R244). -/
def faultOf (i : Instr) (s : State) : Option HaltReason :=
  match i with
  | .ret => if s.sp = 0 then some (.stackUnderflow s.pc 0) else none
  | .call _ => if s.sp < Config.stackDepth then none else some (.stackOverflow s.pc s.sp)
  | .drw _ _ n => boundsFault s.pc s.i.toNat n.toNat
  | .ldB _ => boundsFault s.pc s.i.toNat 3
  | .ldMemX x | .ldXMem x => boundsFault s.pc s.i.toNat (x.toNat + 1)
  | .skp x | .sknp x => if (s.reg x).toNat < 16 then none else some (.keyIndexFault s.pc (s.reg x))
  | _ => none

/-- Whether the key that V[x] names is down; no key has a number above 0x0F (R29). -/
def State.keyDown (s : State) (x : Reg) : Bool := s.keys[(s.reg x).toNat]?.getD false

/-- The state after a key wait (R222). -/
def keyWaited (x : Reg) (s : State) : State :=
  match pressedKeys s.keys with
  | [] => s
  | k :: ks => (s.setV x (BitVec.ofNat 8 (drawKey s.draws (k :: ks)))).drew.seq

/-- The state in which an instruction completes when it raises no fault (R123, R124). -/
def completed (i : Instr) (s : State) : State :=
  match i with
  | .cls => (s.setFrame blankFrame).seq
  | .ret => s.drop.goto s.top
  | .jp a => s.goto (zextAddr a)
  | .call a => (s.push (s.pc + 2#16)).goto (zextAddr a)
  | .seKk x kk => s.skipIf (decide (s.reg x = kk))
  | .sneKk x kk => s.skipIf (decide (s.reg x ≠ kk))
  | .seXy x y => s.skipIf (decide (s.reg x = s.reg y))
  | .sneXy x y => s.skipIf (decide (s.reg x ≠ s.reg y))
  | .ldKk x kk => (s.setV x kk).seq
  | .addKk x kk => (s.setV x (s.reg x + kk)).seq
  | .ldXy x y => (s.setV x (s.reg y)).seq
  | .orXy x y => (s.setV x (s.reg x ||| s.reg y)).seq
  | .andXy x y => (s.setV x (s.reg x &&& s.reg y)).seq
  | .xorXy x y => (s.setV x (s.reg x ^^^ s.reg y)).seq
  | .addXy x y => (s.setResult x (s.reg x + s.reg y) (carryOut (s.reg x) (s.reg y))).seq
  | .subXy x y => (s.setResult x (s.reg x - s.reg y) (noBorrow (s.reg x) (s.reg y))).seq
  | .shrX x _ => (s.setResult x (s.reg x >>> 1) (lowBit (s.reg x))).seq
  | .subnXy x y => (s.setResult x (s.reg y - s.reg x) (noBorrow (s.reg y) (s.reg x))).seq
  | .shlX x _ => (s.setResult x (s.reg x <<< 1) (highBit (s.reg x))).seq
  | .ldI a => (s.setI (zextAddr a)).seq
  | .jpV0 a => s.goto (offsetTarget (s.reg 0x0#4) a)
  | .rnd x kk => (s.setV x (Config.drawByte s.draws &&& kk)).drew.seq
  | .drw x y n => ((s.setFrame (drawn x y n s).1).setV regF (flagByte (drawn x y n s).2)).seq
  | .skp x => s.skipIf (s.keyDown x)
  | .sknp x => s.skipIf (!s.keyDown x)
  | .ldXDt x => (s.setV x s.dt).seq
  | .ldXK x => keyWaited x s
  | .ldDtX x => (s.setDt (s.reg x)).seq
  | .ldStX x => (s.setSt (s.reg x)).seq
  | .addIX x => (s.setI (indexSum s.i (s.reg x))).seq
  | .ldF x => (s.setI (glyphAddr (s.reg x))).seq
  | .ldB x => (s.setMem (Mem.writeBytes s.mem s.i.toNat (bcdDigits (s.reg x)))).seq
  | .ldMemX x => (s.setMem (Mem.writeBytes s.mem s.i.toNat (regsUpTo s.v x))).seq
  | .ldXMem x => (s.setRegs (loadRegs s.v 0 (Mem.readBytes s.mem s.i.toNat (x.toNat + 1)))).seq

theorem storeAtI_eq (bs : List Byte) (s : State) :
    storeAtI bs s = .next ((boundsFault s.pc s.i.toNat bs.length).elim
      (s.setMem (Mem.writeBytes s.mem s.i.toNat bs)).seq s.halt) := by
  unfold storeAtI memWrite State.addrI
  cases boundsFault s.pc s.i.toNat bs.length <;> rfl

theorem execDrw_eq (x y : Reg) (n : Nibble) (s : State) :
    execDrw x y n s = .next ((boundsFault s.pc s.i.toNat n.toNat).elim (completed (.drw x y n) s) s.halt) := by
  unfold execDrw memRead State.addrI
  cases boundsFault s.pc s.i.toNat n.toNat <;> rfl

theorem execLdXMem_eq (x : Reg) (s : State) :
    execLdXMem x s = .next ((boundsFault s.pc s.i.toNat (x.toNat + 1)).elim (completed (.ldXMem x) s) s.halt) := by
  unfold execLdXMem memRead State.addrI
  cases boundsFault s.pc s.i.toNat (x.toNat + 1) <;> rfl

theorem skipByKey_eq (x : Reg) (d : Bool) (s : State) :
    skipByKey x d s = .next ((if (s.reg x).toNat < 16 then none else some (.keyIndexFault s.pc (s.reg x))).elim
      (s.skipIf (s.keyDown x == d)) s.halt) := by
  unfold skipByKey State.keyDown
  split
  next h => rw [Vector.getElem?_eq_getElem h]; rfl
  next => rfl

theorem execLdXK_eq (x : Reg) (s : State) : execLdXK x s = .next (keyWaited x s) := by
  unfold execLdXK keyWaited
  cases pressedKeys s.keys <;> rfl

/-- Every execution gives a next state: the halted one of its fault, or else the completed one. -/
theorem exec_eq (i : Instr) (s : State) : exec i s = .next ((faultOf i s).elim (completed i s) s.halt) := by
  cases i
  case ret =>
    simp only [exec, execRet, faultOf]
    split <;> rfl
  case call =>
    simp only [exec, execCall, faultOf]
    split <;> rfl
  case drw x y n => exact execDrw_eq x y n s
  case ldB x => exact storeAtI_eq (bcdDigits (s.reg x)) s
  case ldMemX x =>
    have h := storeAtI_eq (regsUpTo s.v x) s
    rw [regsUpTo_length] at h
    exact h
  case ldXMem x => exact execLdXMem_eq x s
  case skp x =>
    have h := skipByKey_eq x true s
    rw [beq_true] at h
    exact h
  case sknp x =>
    have h := skipByKey_eq x false s
    rw [beq_false] at h
    exact h
  case ldXK x => exact execLdXK_eq x s
  all_goals rfl

theorem exec_cases {i : Instr} {s t : State} (h : exec i s = .next t) :
    (faultOf i s = none ∧ t = completed i s) ∨ ∃ r, faultOf i s = some r ∧ t = s.halt r := by
  rw [exec_eq, Host.Outcome.next.injEq] at h
  cases hf : faultOf i s with
  | none => rw [hf] at h; exact .inl ⟨rfl, h.symm⟩
  | some r => rw [hf] at h; exact .inr ⟨r, rfl, h.symm⟩

theorem exec_of_faultOf_none {i : Instr} {s : State} (h : faultOf i s = none) : exec i s = .next (completed i s) := by
  rw [exec_eq, h]; rfl

/-! ### The faults (R244) -/

/-- A bounds check faults with an address outside memory. -/
theorem boundsFault_eq_some {pc : Word} {a n : Nat} {r : HaltReason} (h : boundsFault pc a n = some r) :
    ∃ b, 0x1000 ≤ b ∧ r = .addressFault pc b := by
  unfold boundsFault at h
  split at h
  · cases h; exact ⟨_, le_max_right a Config.memSize, rfl⟩
  · cases h

/-- Each instruction raises at most its own kind of fault, with the report of that fault (R244, decision D19). -/
theorem faultOf_eq_some {i : Instr} {s : State} {r : HaltReason} (h : faultOf i s = some r) :
    ((∃ a, i = .call a) ∧ r = .stackOverflow s.pc s.sp) ∨
    (i = .ret ∧ r = .stackUnderflow s.pc 0) ∨
    (((∃ x y n, i = .drw x y n) ∨ (∃ x, i = .ldB x) ∨ (∃ x, i = .ldMemX x) ∨ (∃ x, i = .ldXMem x)) ∧
      ∃ a, 0x1000 ≤ a ∧ r = .addressFault s.pc a) ∨
    (∃ x, (i = .skp x ∨ i = .sknp x) ∧ 0x0F < (s.reg x).toNat ∧ r = .keyIndexFault s.pc (s.reg x)) := by
  unfold faultOf at h
  split at h
  case h_1 =>
    split at h <;> cases h
    exact .inr (.inl ⟨rfl, rfl⟩)
  case h_2 a =>
    split at h <;> cases h
    exact .inl ⟨⟨a, rfl⟩, rfl⟩
  case h_3 x y n => exact .inr (.inr (.inl ⟨.inl ⟨x, y, n, rfl⟩, boundsFault_eq_some h⟩))
  case h_4 x => exact .inr (.inr (.inl ⟨.inr (.inl ⟨x, rfl⟩), boundsFault_eq_some h⟩))
  case h_5 x => exact .inr (.inr (.inl ⟨.inr (.inr (.inl ⟨x, rfl⟩)), boundsFault_eq_some h⟩))
  case h_6 x => exact .inr (.inr (.inl ⟨.inr (.inr (.inr ⟨x, rfl⟩)), boundsFault_eq_some h⟩))
  case h_7 x =>
    split at h <;> cases h
    next hx => exact .inr (.inr (.inr ⟨x, .inl rfl, by omega, rfl⟩))
  case h_8 x =>
    split at h <;> cases h
    next hx => exact .inr (.inr (.inr ⟨x, .inr rfl, by omega, rfl⟩))
  case h_9 => cases h

/-- A halt port report that names the instruction at pc, for a fault and not the quit (R242). -/
theorem haltReport_of_faultOf {i : Instr} {s : State} {r : HaltReason} (h : faultOf i s = some r) :
    ∃ value, haltReport r = some (s.pc, value) := by
  rcases faultOf_eq_some h with ⟨-, rfl⟩ | ⟨-, rfl⟩ | ⟨-, a, -, rfl⟩ | ⟨x, -, -, rfl⟩ <;> exact ⟨_, rfl⟩

/-! ### The completed state -/

theorem keyWaited_run (x : Reg) (s : State) : (keyWaited x s).run = s.run := by unfold keyWaited; split <;> rfl

theorem completed_run (i : Instr) (s : State) : (completed i s).run = s.run := by
  cases i
  case seKk | sneKk | seXy | sneXy | skp | sknp => exact State.skipIf_run s _
  case addXy | subXy | shrX | subnXy | shlX => exact State.setResult_run s _ _ _
  case ldXK x => exact keyWaited_run x s
  all_goals rfl

/-! ### The obligations -/

/-- Settles O12: a Running block that halts has not completed. -/
theorem eachInstructionRaisesItsOwnFault : Obligations.EachInstructionRaisesItsOwnFault := by
  intro i s t r hs he hr
  rcases exec_cases he with ⟨-, rfl⟩ | ⟨q, hq, rfl⟩
  · rw [completed_run, hs] at hr; cases hr
  · cases hr; exact faultOf_eq_some hq

theorem instrStep_next (s : State) : ∃ t, instrStep s = .next t := by
  rcases instrStep_cases s with ⟨i, -, -, he⟩ | ⟨-, -, he⟩ | ⟨-, he⟩
  · exact ⟨_, he.trans (exec_eq i s)⟩
  · exact ⟨_, he⟩
  · exact ⟨_, he⟩

theorem step_next_of_running {s : State} (hr : s.run = .running) : ∃ t, step s = .next t := by
  cases hi : s.inputs with
  | nil => rw [step_free hr hi]; exact instrStep_next s
  | cons e rest =>
    cases e with
    | keysIn k => exact ⟨_, step_keysIn hr hi⟩
    | tickIn => exact ⟨_, step_tickIn hr hi⟩
    | stepIn => rw [step_stepIn hr hi]; exact instrStep_next _
    | quitIn => exact ⟨_, step_quitIn hr hi⟩
    | pacedIn =>
      obtain ⟨u, hu⟩ := instrStep_next (s.setInputs rest)
      exact ⟨_, step_pacedIn hr hi hu⟩

/-- Settles O10: every event of a Running block gives a next state, and the step of a Halted block is a fault. -/
theorem runningBlockAlwaysSteps : Obligations.RunningBlockAlwaysSteps := by
  refine fun s => ⟨step_next_of_running, fun r => ?_⟩
  cases hr : s.run with
  | running =>
    obtain ⟨t, ht⟩ := step_next_of_running hr
    rw [ht]
    exact nofun
  | halted q =>
    rw [step_halted hr]
    exact nofun

/-- An instruction step of a Running block that halts it changes RUN only, and the reason reports the PC of that instruction. -/
theorem instrStep_halted {s t : State} {r : HaltReason} (hs : s.run = .running) (h : instrStep s = .next t)
    (hr : t.run = .halted r) : t = s.halt r ∧ ∃ value, haltReport r = some (s.pc, value) := by
  rcases instrStep_cases s with ⟨i, -, -, he⟩ | ⟨-, -, he⟩ | ⟨-, he⟩
  · rcases exec_cases (he.symm.trans h) with ⟨-, rfl⟩ | ⟨q, hq, rfl⟩
    · rw [completed_run, hs] at hr; cases hr
    · cases hr; exact ⟨rfl, haltReport_of_faultOf hq⟩
  · cases he.symm.trans h; cases hr; exact ⟨rfl, _, rfl⟩
  · cases he.symm.trans h; cases hr; exact ⟨rfl, _, rfl⟩

theorem account_run (c : Nat) (s : State) : (account c s).run = s.run := by
  cases hr : s.run with
  | halted r => rw [account_halted hr, hr]
  | running => rw [account_running hr]; split <;> exact hr

/-- A step that halts the block for another reason than the quit is an instruction step that faults, taken on its own or as the
first part of a paced step, whose accounting then does nothing. -/
theorem step_faulted {s t : State} {r : HaltReason} (h : step s = .next t) (hr : t.run = .halted r) (hq : r ≠ .quit) :
    s.run = .running ∧ instrStep (s.setInputs s.inputs.tail) = .next t := by
  obtain ⟨hs, ⟨hi, -⟩ | ⟨k, rest, -, rfl⟩ | ⟨rest, -, rfl⟩ | ⟨rest, -, rfl⟩ | ⟨rest, u, hin, hu, rfl⟩⟩ := step_cases h
  · exact ⟨hs, hi⟩
  · rw [State.setKeys_run, State.setInputs_run, hs] at hr; cases hr
  · rw [tick_running (s := s.setInputs rest) hs] at hr; cases hs.symm.trans hr
  · cases hr; exact absurd rfl hq
  · rw [account_run] at hr
    rw [account_halted hr, hin]
    exact ⟨hs, hu⟩

/-- Settles O11: the code is that of the reason, and the reason reports the PC at which the block stops. -/
theorem faultingStepChangesOnlyRun : Obligations.FaultingStepChangesOnlyRun := by
  intro s t r h hr hq
  obtain ⟨hs, hi⟩ := step_faulted h hr hq
  obtain ⟨rfl, value, hvalue⟩ := instrStep_halted (s := s.setInputs s.inputs.tail) hs hi hr
  refine ⟨rfl, by rw [haltOut, hs], haltCode r, value, congrArg (fun q => some (haltCode r, q)) hvalue, ?_⟩
  cases r <;> cases hvalue <;> exact ⟨rfl, rfl⟩

end Sys2Proof.Machine
end

section
/-! PROOFS. What a completing instruction writes and reads: PC (40_cycle.md R124), the other pieces of state (10_state.md R20),
and the fields that no instruction reads (R28, R29, R31, R34). -/

namespace Sys2Proof.Machine

/-! ### The key wait -/

/-- A key wait with some key down stores the number of one of them; with none down it does nothing (R222). -/
theorem keyWaited_cases (x : Reg) (s : State) :
    (∃ k : Fin 16, s.keys[k.val] = true ∧ keyWaited x s = (s.setV x (BitVec.ofNat 8 k.val)).drew.seq) ∨
    ((∀ k : Fin 16, s.keys[k.val] = false) ∧ keyWaited x s = s) := by
  unfold keyWaited
  cases hp : pressedKeys s.keys with
  | nil =>
    refine .inr ⟨fun k => Bool.eq_false_iff.mpr fun hk => ?_, rfl⟩
    have hmem := (mem_pressedKeys s.keys k.val).mpr ⟨k.isLt, hk⟩
    rw [hp] at hmem
    cases hmem
  | cons k ks =>
    have hmem : drawKey s.draws (k :: ks) ∈ pressedKeys s.keys := by rw [hp]; exact drawKey_mem s.draws k ks
    obtain ⟨hlt, hdown⟩ := (mem_pressedKeys s.keys _).mp hmem
    exact .inl ⟨⟨drawKey s.draws (k :: ks), hlt⟩, hdown, rfl⟩

@[simp] theorem keyWaited_i (x : Reg) (s : State) : (keyWaited x s).i = s.i := by unfold keyWaited; split <;> rfl
@[simp] theorem keyWaited_stack (x : Reg) (s : State) : (keyWaited x s).stack = s.stack := by unfold keyWaited; split <;> rfl
@[simp] theorem keyWaited_sp (x : Reg) (s : State) : (keyWaited x s).sp = s.sp := by unfold keyWaited; split <;> rfl
@[simp] theorem keyWaited_dt (x : Reg) (s : State) : (keyWaited x s).dt = s.dt := by unfold keyWaited; split <;> rfl
@[simp] theorem keyWaited_st (x : Reg) (s : State) : (keyWaited x s).st = s.st := by unfold keyWaited; split <;> rfl
@[simp] theorem keyWaited_keys (x : Reg) (s : State) : (keyWaited x s).keys = s.keys := by unfold keyWaited; split <;> rfl
@[simp] theorem keyWaited_fb (x : Reg) (s : State) : (keyWaited x s).fb = s.fb := by unfold keyWaited; split <;> rfl
@[simp] theorem keyWaited_dirty (x : Reg) (s : State) : (keyWaited x s).dirty = s.dirty := by unfold keyWaited; split <;> rfl
@[simp] theorem keyWaited_acc (x : Reg) (s : State) : (keyWaited x s).acc = s.acc := by unfold keyWaited; split <;> rfl
@[simp] theorem keyWaited_mem (x : Reg) (s : State) : (keyWaited x s).mem = s.mem := by unfold keyWaited; split <;> rfl
@[simp] theorem keyWaited_inputs (x : Reg) (s : State) : (keyWaited x s).inputs = s.inputs := by unfold keyWaited; split <;> rfl

/-! ### The PC update (R124) -/

theorem State.keyDown_iff (s : State) (x : Reg) : s.keyDown x = true ↔ s.keys[(s.reg x).toNat]? = some true := by
  unfold State.keyDown
  cases s.keys[(s.reg x).toNat]? <;> simp

theorem keyWaited_pc (x : Reg) (s : State) [Decidable (∃ k : Fin 16, s.keys[k.val] = true)] :
    (keyWaited x s).pc = if ∃ k : Fin 16, s.keys[k.val] = true then s.pc + 2#16 else s.pc := by
  rcases keyWaited_cases x s with ⟨k, hk, he⟩ | ⟨hnone, he⟩ <;> rw [he]
  · rw [if_pos ⟨k, hk⟩]; rfl
  · rw [if_neg (by simp [hnone])]

/-- Bnnn's target is the sum of integers as a word (R147). -/
theorem offsetTarget_eq (b : Byte) (a : Addr12) : offsetTarget b a = BitVec.ofNat 16 (b.toNat + a.toNat) := by
  apply BitVec.eq_of_toNat_eq
  rw [offsetTarget, BitVec.toNat_add, zextByte_toNat, zextAddr_toNat, BitVec.toNat_ofNat]

theorem add_toNat_of_le {pc : Word} {n : Nat} (hn : n ≤ 4) (h : pc.toNat ≤ 0x0FFE) :
    (pc + BitVec.ofNat 16 n).toNat = pc.toNat + n := by
  rw [BitVec.toNat_add, BitVec.toNat_ofNat]; omega

/-- Settles O13: what the completed state of each instruction has as PC. -/
theorem pcUpdateIsOneOfFour : Obligations.PcUpdateIsOneOfFour := by
  intro i s t hs he ht
  refine ⟨fun hpc => ⟨add_toNat_of_le (by decide) hpc, add_toNat_of_le (by decide) hpc⟩, ?_⟩
  obtain ⟨-, rfl⟩ : faultOf i s = none ∧ t = completed i s :=
    (exec_cases he).resolve_right (by rintro ⟨r, -, rfl⟩; cases ht)
  cases i
  case seKk | seXy => exact State.skipIf_decide_pc s _
  case sneKk | sneXy => exact State.skipIf_decide_not_pc s _
  case jpV0 a => exact offsetTarget_eq _ a
  case skp x => simp only [completed, State.skipIf_pc, s.keyDown_iff]
  case sknp x =>
    simp only [completed, State.skipIf_pc, Bool.not_eq_true', ← Bool.not_eq_true, s.keyDown_iff, ite_not]
  case ldXK x => exact keyWaited_pc x s
  case addXy | subXy | shrX | subnXy | shlX => exact State.setResult_seq_pc s _ _ _
  all_goals rfl

/-! ### The writers of each piece of state (R20) -/

theorem writer_of_i_ne {i : Instr} {s : State} (h : (completed i s).i ≠ s.i) :
    (∃ a, i = .ldI a) ∨ (∃ x, i = .addIX x) ∨ (∃ x, i = .ldF x) := by
  cases i
  case ldI a => exact .inl ⟨a, rfl⟩
  case addIX x => exact .inr (.inl ⟨x, rfl⟩)
  case ldF x => exact .inr (.inr ⟨x, rfl⟩)
  all_goals exact absurd (by simp [completed]) h

theorem writer_of_stack_ne {i : Instr} {s : State} (h : (completed i s).stack ≠ s.stack) : ∃ a, i = .call a := by
  cases i
  case call a => exact ⟨a, rfl⟩
  all_goals exact absurd (by simp [completed]) h

theorem writer_of_sp_ne {i : Instr} {s : State} (h : (completed i s).sp ≠ s.sp) : i = .ret ∨ ∃ a, i = .call a := by
  cases i
  case ret => exact .inl rfl
  case call a => exact .inr ⟨a, rfl⟩
  all_goals exact absurd (by simp [completed]) h

theorem writer_of_dt_ne {i : Instr} {s : State} (h : (completed i s).dt ≠ s.dt) : ∃ x, i = .ldDtX x := by
  cases i
  case ldDtX x => exact ⟨x, rfl⟩
  all_goals exact absurd (by simp [completed]) h

theorem writer_of_st_ne {i : Instr} {s : State} (h : (completed i s).st ≠ s.st) : ∃ x, i = .ldStX x := by
  cases i
  case ldStX x => exact ⟨x, rfl⟩
  all_goals exact absurd (by simp [completed]) h

theorem writer_of_screen_ne {i : Instr} {s : State} (h : (completed i s).fb ≠ s.fb ∨ (completed i s).dirty ≠ s.dirty) :
    i = .cls ∨ ∃ x y n, i = .drw x y n := by
  cases i
  case cls => exact .inl rfl
  case drw x y n => exact .inr ⟨x, y, n, rfl⟩
  all_goals exact h.elim (absurd (by simp [completed])) (absurd (by simp [completed]))

theorem writer_of_mem_ne {i : Instr} {s : State} (h : (completed i s).mem ≠ s.mem) :
    (∃ x, i = .ldB x) ∨ ∃ x, i = .ldMemX x := by
  cases i
  case ldB x => exact .inl ⟨x, rfl⟩
  case ldMemX x => exact .inr ⟨x, rfl⟩
  all_goals exact absurd (by simp [completed]) h

theorem completed_acc (i : Instr) (s : State) : (completed i s).acc = s.acc := by
  cases i <;> simp [completed]

theorem completed_inputs (i : Instr) (s : State) : (completed i s).inputs = s.inputs := by
  cases i <;> simp [completed]

theorem completed_keys (i : Instr) (s : State) : (completed i s).keys = s.keys := by
  cases i <;> simp [completed]

/-- Settles O14: a fault writes RUN only, and of a completed state each field is looked at on its own. -/
theorem onlyTheListedInstructionsWrite : Obligations.OnlyTheListedInstructionsWrite := by
  intro i s t he
  rcases exec_cases he with ⟨-, rfl⟩ | ⟨r, -, rfl⟩
  · refine ⟨fun hv => ?_, writer_of_i_ne, writer_of_stack_ne, writer_of_sp_ne, writer_of_dt_ne, writer_of_st_ne, writer_of_screen_ne, writer_of_mem_ne,
      completed_keys i s, completed_acc i s, completed_inputs i s⟩
    cases i
    case cls | ret | jp | call | ldI | jpV0 | ldDtX | ldStX | addIX | ldF | ldB | ldMemX => exact hv rfl
    case seKk | sneKk | seXy | sneXy | skp | sknp => exact hv (State.skipIf_v s _)
    all_goals trivial
  · exact ⟨absurd rfl, absurd rfl, absurd rfl, absurd rfl, absurd rfl, absurd rfl, fun h => h.elim (absurd rfl) (absurd rfl),
      absurd rfl, rfl, rfl, rfl⟩

/-! ### The fields that instructions do not read -/

/-- The state with ST, DIRTY and ACC forgotten. -/
def State.hide (s : State) : State := { s with st := 0#8, dirty := false, acc := 0 }

theorem State.hide_skipIf (s : State) (c : Bool) : (s.skipIf c).hide = s.hide.skipIf c := by cases c <;> rfl

theorem State.hide_setResult_seq (s : State) (x : Reg) (r : Byte) (c : Bool) :
    (s.setResult x r c).seq.hide = (s.hide.setResult x r c).seq := by
  unfold State.setResult; split <;> rfl

theorem hide_keyWaited (x : Reg) (s : State) : (keyWaited x s).hide = keyWaited x s.hide := by
  unfold keyWaited State.hide
  cases pressedKeys s.keys <;> rfl

/-- Up to ST, DIRTY and ACC, an instruction completes alike whatever those three hold (R28, R31, R34). -/
theorem hide_completed_hide (i : Instr) (s : State) : (completed i s.hide).hide = (completed i s).hide := by
  cases i
  case seKk | sneKk | seXy | sneXy | skp | sknp => simp only [completed, State.hide_skipIf]; rfl
  case addXy | subXy | shrX | subnXy | shlX => simp only [completed, State.hide_setResult_seq]; rfl
  case ldXK x => simp only [completed, hide_keyWaited]; rfl
  all_goals rfl

theorem faultOf_hide (i : Instr) (s : State) : faultOf i s.hide = faultOf i s := by cases i <;> rfl

/-- Up to ST, DIRTY and ACC, the outcome of an execution is settled by the state without them. -/
theorem exec_hide (i : Instr) (s : State) : ∃ t, exec i s = .next t ∧
    t.hide = ((faultOf i s.hide).elim (completed i s.hide) s.hide.halt).hide := by
  refine ⟨_, exec_eq i s, ?_⟩
  rw [faultOf_hide]
  cases faultOf i s with
  | none => exact (hide_completed_hide i s).symm
  | some r => rfl

theorem State.setKeys_skipIf (s : State) (k : Keys) (c : Bool) : (s.setKeys k).skipIf c = (s.skipIf c).setKeys k := by
  cases c <;> rfl

theorem State.setKeys_setResult_seq (s : State) (k : Keys) (x : Reg) (r : Byte) (c : Bool) :
    ((s.setKeys k).setResult x r c).seq = (s.setResult x r c).seq.setKeys k := by
  unfold State.setResult; split <;> rfl

/-- An instruction other than the three that poll the keypad completes alike whatever KEYS holds (R29). -/
theorem completed_setKeys {i : Instr} (hskp : ∀ x, i ≠ .skp x) (hsknp : ∀ x, i ≠ .sknp x) (hk : ∀ x, i ≠ .ldXK x)
    (k : Keys) (s : State) : completed i (s.setKeys k) = (completed i s).setKeys k := by
  cases i
  case skp x => exact absurd rfl (hskp x)
  case sknp x => exact absurd rfl (hsknp x)
  case ldXK x => exact absurd rfl (hk x)
  case seKk | sneKk | seXy | sneXy => exact State.setKeys_skipIf s k _
  case addXy | subXy | shrX | subnXy | shlX => exact State.setKeys_setResult_seq s k _ _ _
  all_goals rfl

theorem faultOf_setKeys (i : Instr) (s : State) (k : Keys) : faultOf i (s.setKeys k) = faultOf i s := by cases i <;> rfl

/-- Settles O15: two states that differ in ST, DIRTY and ACC are one state with those forgotten. -/
theorem instructionsDoNotReadStDirtyAccKeys : Obligations.InstructionsDoNotReadStDirtyAccKeys := by
  refine fun i s => ⟨fun b d a => ?_, fun k hskp hsknp hk => ⟨_, exec_eq i s, ?_⟩⟩
  · obtain ⟨t, ht, hthide⟩ := exec_hide i s
    obtain ⟨u, hu, huhide⟩ := exec_hide i { s with st := b, dirty := d, acc := a }
    exact ⟨t, u, ht, hu, hthide.trans huhide.symm⟩
  · show exec i (s.setKeys k) = .next (State.setKeys _ k)
    rw [exec_eq, faultOf_setKeys, completed_setKeys hskp hsknp hk]
    cases faultOf i s <;> rfl

end Sys2Proof.Machine
end

section
/-! PROOFS. The invariant (10_state.md R24, R27): reset satisfies it and every step keeps it. -/

namespace Sys2Proof.Machine

/-! ### Reset -/

theorem inv_reset : State.reset.Inv :=
  ⟨Mem.wf_reset, Nat.zero_le _, Nat.zero_le _, fun _ h => absurd h List.not_mem_nil, by decide⟩

/-- Only the memory of the invariant depends on what is loaded; FONT and the image both lie inside MEM (R282). -/
theorem inv_boot (b : Boot) : (State.boot b).Inv := by
  obtain ⟨hmem, hrest⟩ := inv_reset
  refine ⟨Mem.wf_writeBytes _ (Mem.wf_writeBytes _ hmem ?_) ?_, hrest⟩
  · exact (Nat.add_le_add_left (List.length_take_le _ _) 0).trans (by decide)
  · exact (Nat.add_le_add_left (List.length_take_le _ _) _).trans (by decide)

/-- Settles O18: reset, and reset with a loaded memory. -/
theorem resetSatisfiesTheInvariant : Obligations.ResetSatisfiesTheInvariant := ⟨inv_reset, inv_boot⟩

/-- Settles O16: V, KEYS and FB hold one value in every element, and the call stack holds nothing. -/
theorem resetLeavesTheStatedValues : Obligations.ResetLeavesTheStatedValues := by
  refine ⟨fun x => ?_, rfl, rfl, rfl, fun j => ?_, rfl, rfl, fun k => ?_, pixel_blank, rfl, rfl, rfl, rfl, rfl⟩
  · exact Vector.getElem_replicate (reg_lt x)
  · exact List.getD_nil
  · exact Vector.getElem_replicate k.isLt

/-! ### What a completing instruction keeps -/

theorem boundsFault_eq_none {pc : Word} {a n : Nat} (h : boundsFault pc a n = none) (hn : 0 < n) :
    a + n ≤ Config.memSize := by
  by_contra hlt
  rw [boundsFault_some hn (Nat.lt_of_not_le hlt)] at h
  cases h

theorem sp_lt_of_call {a : Addr12} {s : State} (hf : faultOf (.call a) s = none) : s.sp < Config.stackDepth := by
  by_contra h
  simp [faultOf, h] at hf

section
variable {i : Instr} {s : State} (hinv : s.Inv) (hf : faultOf i s = none)
include hinv hf

/-- A store that the bounds check lets through keeps the canonical form of memory. -/
theorem completed_mem_wf : Mem.wf (completed i s).mem := by
  obtain ⟨hwf, -⟩ := hinv
  by_cases h : (completed i s).mem = s.mem
  · rw [h]; exact hwf
  · rcases writer_of_mem_ne h with ⟨x, rfl⟩ | ⟨x, rfl⟩
    · exact Mem.wf_writeBytes _ hwf (boundsFault_eq_none hf (Nat.succ_pos 2))
    · refine Mem.wf_writeBytes _ hwf ?_
      rw [regsUpTo_length]
      exact boundsFault_eq_none hf x.toNat.succ_pos

theorem completed_sp_le : (completed i s).sp ≤ Config.stackDepth := by
  obtain ⟨-, hsp, -⟩ := hinv
  by_cases h : (completed i s).sp = s.sp
  · rw [h]; exact hsp
  · rcases writer_of_sp_ne h with rfl | ⟨a, rfl⟩
    · exact (Nat.sub_le s.sp 1).trans hsp
    · exact sp_lt_of_call hf

/-- The entry that CALL pushes is the PC of a fetched word plus 2 (R140, R142). -/
theorem completed_stack_bounds (hpc : s.pc.toNat ≤ 0x0FFE) :
    (completed i s).stack.length ≤ Config.stackDepth ∧ ∀ w ∈ (completed i s).stack, w.toNat ≤ 0x1000 := by
  obtain ⟨-, -, hlen, hentries, -⟩ := hinv
  by_cases h : (completed i s).stack = s.stack
  · rw [h]; exact ⟨hlen, hentries⟩
  · obtain ⟨a, rfl⟩ := writer_of_stack_ne h
    refine ⟨stackSet_length_le _ _ _ _ (sp_lt_of_call hf) hlen, fun w hw => ?_⟩
    rcases mem_stackSet hw with rfl | hw | rfl
    · rw [add_toNat_of_le (by decide) hpc]; omega
    · exact hentries w hw
    · exact Nat.zero_le _

/-- PC is a target of 12 bits, V0 plus one, a return address, or at most 4 past a fetched word (R24, R124). -/
theorem completed_pc_le (hs : s.run = .running) (hpc : s.pc.toNat ≤ 0x0FFE) : (completed i s).pc.toNat ≤ 0x10FE := by
  obtain ⟨-, -, -, hentries, -⟩ := hinv
  obtain ⟨hsums, hupdate⟩ :=
    pcUpdateIsOneOfFour i s _ hs (exec_of_faultOf_none hf) ((completed_run i s).trans hs)
  obtain ⟨htwo, hfour⟩ := hsums hpc
  rw [hupdate]
  cases i
  case jp a | call a =>
    have ha := zextAddr_toNat a
    rw [zextAddr] at ha
    dsimp only
    omega
  case jpV0 a =>
    dsimp only
    rw [BitVec.toNat_ofNat]
    omega
  case ret =>
    rcases stackGet_mem s.stack (s.sp - 1) with h | h
    · exact (hentries _ h).trans (by decide)
    · dsimp only
      rw [h]; exact Nat.zero_le _
  case seKk | sneKk | seXy | sneXy | skp | sknp | ldXK => dsimp only; split <;> omega
  all_goals dsimp only; omega

theorem inv_completed (hs : s.run = .running) (hpc : s.pc.toNat ≤ 0x0FFE) : (completed i s).Inv := by
  obtain ⟨hlen, hentries⟩ := completed_stack_bounds hinv hf hpc
  exact ⟨completed_mem_wf hinv hf, completed_sp_le hinv hf, hlen, hentries, completed_pc_le hinv hf hs hpc⟩

end

/-! ### What a step keeps -/

theorem inv_instrStep {s t : State} (hinv : s.Inv) (hs : s.run = .running) (h : instrStep s = .next t) : t.Inv := by
  rcases instrStep_cases s with ⟨i, hpc, -, he⟩ | ⟨-, -, he⟩ | ⟨-, he⟩
  · rcases exec_cases (he.symm.trans h) with ⟨hf, rfl⟩ | ⟨r, -, rfl⟩
    · rw [memSize_eq] at hpc
      exact inv_completed hinv hf hs (by omega)
    · exact hinv
  · cases he.symm.trans h; exact hinv
  · cases he.symm.trans h; exact hinv

theorem inv_tick {s : State} (h : s.Inv) (hs : s.run = .running) : (tick s).Inv := by
  rw [tick_running hs]; exact h

theorem inv_account {s : State} (h : s.Inv) (c : Nat) : (account c s).Inv := by
  cases hr : s.run with
  | halted r => rw [account_halted hr]; exact h
  | running => rw [account_running hr]; split <;> exact h

/-- Settles O19: only an instruction writes what the invariant speaks of. -/
theorem stepKeepsTheInvariant : Obligations.StepKeepsTheInvariant := by
  intro s t hinv h
  obtain ⟨hs, ⟨hi, -⟩ | ⟨k, rest, -, rfl⟩ | ⟨rest, -, rfl⟩ | ⟨rest, -, rfl⟩ | ⟨rest, u, -, hu, rfl⟩⟩ := step_cases h
  · exact inv_instrStep (s := s.setInputs s.inputs.tail) hinv hs hi
  · exact hinv
  · exact inv_tick (s := s.setInputs rest) hinv hs
  · exact hinv
  · exact inv_account (inv_instrStep (s := s.setInputs rest) hinv hs hu) _

end Sys2Proof.Machine
end

section
/-! PROOFS. Ticks and the reference schedule (60_exceptions.md R256, R257, R261 to R265). -/

namespace Sys2Proof.Machine

/-! ### Many ticks -/

/-- Settles O22: induction on the number of ticks. -/
theorem ticksCountDownToZero : Obligations.TicksCountDownToZero := by
  intro n s hs
  induction n with
  | zero => exact ⟨rfl, rfl, hs⟩
  | succ n ih =>
    obtain ⟨hdt, hst, hrun⟩ := ih
    rw [Function.iterate_succ_apply', tick_running hrun]
    refine ⟨?_, ?_, hrun⟩
    · rw [timerDown_toNat, hdt, Nat.sub_sub]
    · rw [timerDown_toNat, hst, Nat.sub_sub]

/-! ### Many accountings -/

/-- One accounting of a Running block, as a number of ticks d that is 0 or 1: the 60 units it adds are what it leaves in ACC
and the c units of each tick (R261, R263). -/
theorem account_exact (c : Nat) {s : State} (hs : s.run = .running) :
    ∃ d, (account c s).acc + c * d = s.acc + 60 ∧ (account c s).dt.toNat = s.dt.toNat - d ∧
      (60 ≤ c → s.acc ≤ c → (account c s).acc ≤ c) := by
  rw [account_running hs]
  split
  next hdue =>
    rw [tickDue_iff] at hdue
    exact ⟨1, by dsimp only; omega, timerDown_toNat s.dt, fun _ _ => by dsimp only; omega⟩
  next hdue =>
    rw [tickDue_iff] at hdue
    exact ⟨0, rfl, rfl, fun _ _ => by dsimp only; omega⟩

/-- Settles O25: the ticks of n accountings are those of each, added up. -/
theorem referenceAccountingIsExact : Obligations.ReferenceAccountingIsExact := by
  intro c n s hs
  suffices h : ((account c)^[n] s).run = .running ∧ _ from h.2
  induction n with
  | zero => exact ⟨hs, 0, rfl, rfl, fun _ h => h⟩
  | succ n ih =>
    obtain ⟨hrun, ticks, hacc, hdt, hbound⟩ := ih
    obtain ⟨d, hacc', hdt', hbound'⟩ := account_exact c hrun
    rw [Function.iterate_succ_apply']
    refine ⟨(account_run c _).trans hrun, ticks + d, ?_, ?_, fun hc hs => hbound' hc (hbound hc hs)⟩
    · rw [Nat.mul_add]; omega
    · rw [hdt', hdt, Nat.sub_sub]

/-! ### The paced step and its present -/

/-- Settles O26: the accounting of a halted block, one without a due tick, and one with it. -/
theorem pacedStepAccountsAfterTheInstruction : Obligations.PacedStepAccountsAfterTheInstruction := by
  intro s rest hs hi
  obtain ⟨u, hu⟩ := instrStep_next (s.setInputs rest)
  have hticked := tickedFrom_pacedIn hs hi hu
  refine ⟨u, _, hu, step_pacedIn hs hi hu, fun hr => ⟨?_, ?_⟩, fun hr hdue => ⟨?_, ?_⟩, fun hr hdue => ⟨?_, ?_⟩⟩
  · cases hrun : u.run with
    | running => exact absurd hrun hr
    | halted r => exact account_halted hrun
  · exact stepPresents_of_not_ticked (hticked.trans (if_neg fun h => hr h.1))
  · rw [account_running hr, if_neg (by rw [tickDue_iff]; omega)]
  · exact stepPresents_of_not_ticked (hticked.trans (if_neg (by rw [tickDue_iff]; omega)))
  · rw [account_running hr, if_pos ((tickDue_iff _ _).mpr hdue), tick_running (by exact hr)]
  · exact stepPresents_of_ticked (hticked.trans (if_pos ⟨hr, (tickDue_iff _ _).mpr hdue⟩)) hr

theorem tickedFrom_run {s u : State} (h : tickedFrom s = some u) : u.run = .running := by
  obtain ⟨hs, ⟨rest, -, rfl⟩ | ⟨rest, -, -, hr, -⟩⟩ := tickedFrom_cases h
  · exact hs
  · exact hr

/-- A frame is presented exactly when the step takes its tick in a state with DIRTY set and that frame (R257). -/
theorem stepPresents_eq_some_iff (s : State) (f : Frame) :
    stepPresents s = some f ↔ ∃ u, tickedFrom s = some u ∧ u.dirty = true ∧ f = u.fb := by
  cases ht : tickedFrom s with
  | none => simp [stepPresents_of_not_ticked ht]
  | some u =>
    rw [stepPresents_of_ticked ht (tickedFrom_run ht)]
    constructor
    · intro h
      split at h
      next hd => exact ⟨u, rfl, hd, (Option.some.inj h).symm⟩
      next => cases h
    · rintro ⟨w, hw, hd, rfl⟩
      cases hw
      exact if_pos hd

/-- A step that takes a tick leaves the block Running with DIRTY clear and FB as the tick found it (R256, R257). -/
theorem step_of_tickedFrom {s u : State} (h : tickedFrom s = some u) :
    ∃ t, step s = .next t ∧ t.fb = u.fb ∧ t.dirty = false ∧ t.run = .running := by
  obtain ⟨hs, ⟨rest, hi, rfl⟩ | ⟨rest, hi, hu, hr, hdue⟩⟩ := tickedFrom_cases h
  · exact ⟨_, step_tickIn hs hi, rfl, rfl, hs⟩
  · refine ⟨_, step_pacedIn hs hi hu, ?_⟩
    rw [account_running hr, if_pos hdue]
    exact ⟨rfl, rfl, hr⟩

/-- Settles O23: the states in which a step can take its tick. -/
theorem presentsOnlyAtATick : Obligations.PresentsOnlyAtATick := by
  refine fun s f => ⟨?_, fun h => ?_⟩
  · rw [stepPresents_eq_some_iff]
    constructor
    · rintro ⟨u, ht, hd, rfl⟩
      obtain ⟨hs, ⟨rest, hi, rfl⟩ | ⟨rest, hi, hu, hr, hdue⟩⟩ := tickedFrom_cases ht
      · exact ⟨hs, .inl ⟨rest, hi, hd, rfl⟩⟩
      · exact ⟨hs, .inr ⟨rest, u, hi, hu, hr, (tickDue_iff _ _).mp hdue, hd, rfl⟩⟩
    · rintro ⟨hs, ⟨rest, hi, hd, rfl⟩ | ⟨rest, u, hi, hu, hr, hdue, hd, rfl⟩⟩
      · exact ⟨_, tickedFrom_tickIn hs hi, hd, rfl⟩
      · exact ⟨u, (tickedFrom_pacedIn hs hi hu).trans (if_pos ⟨hr, (tickDue_iff _ _).mpr hdue⟩), hd, rfl⟩
  · obtain ⟨u, ht, -, rfl⟩ := (stepPresents_eq_some_iff s f).mp h
    exact step_of_tickedFrom ht

/-! ### Fairness (R265) -/

theorem instrStep_acc {s t : State} (h : instrStep s = .next t) : t.acc = s.acc := by
  rcases instrStep_cases s with ⟨i, -, -, he⟩ | ⟨-, -, he⟩ | ⟨-, he⟩
  · rcases exec_cases (he.symm.trans h) with ⟨-, rfl⟩ | ⟨r, -, rfl⟩
    · exact completed_acc i s
    · rfl
  · cases he.symm.trans h; rfl
  · cases he.symm.trans h; rfl

/-- A paced step that takes no tick and leaves the block Running adds its 60 units to ACC, which stays within CLOCK_HZ. -/
theorem acc_of_paced_without_tick {t u : State} (ht : t.run = .running) (hu : u.run = .running)
    (hstep : step (t.setInputs [.pacedIn]) = .next u) (hno : stepTicks (t.setInputs [.pacedIn]) = false) :
    u.acc = t.acc + 60 ∧ u.acc ≤ Config.clockHz := by
  obtain ⟨w, hw⟩ := instrStep_next (t.setInputs [])
  obtain rfl := Host.Outcome.next.inj ((step_pacedIn (s := t.setInputs [.pacedIn]) ht rfl hw).symm.trans hstep)
  rw [account_run] at hu
  have hdue : ¬ tickDue Config.clockHz w.acc = true := by
    intro h
    rw [stepTicks, tickedFrom_pacedIn (s := t.setInputs [.pacedIn]) ht rfl hw, if_pos ⟨hu, h⟩] at hno
    cases hno
  have hacc : w.acc = t.acc := instrStep_acc (s := t.setInputs []) hw
  rw [account_running hu, if_neg hdue]
  rw [tickDue_iff] at hdue
  exact ⟨congrArg (· + 60) hacc, by dsimp only; omega⟩

/-- Without a tick, ACC never falls. -/
theorem acc_le_of_no_tick {t u : State} {e : Input} (ht : t.run = .running) (hu : u.run = .running)
    (hstep : step (t.setInputs [e]) = .next u) (hno : stepTicks (t.setInputs [e]) = false) : t.acc ≤ u.acc := by
  cases e with
  | keysIn k => cases (step_keysIn (s := t.setInputs [.keysIn k]) ht rfl).symm.trans hstep; exact le_rfl
  | tickIn => cases (step_tickIn (s := t.setInputs [.tickIn]) ht rfl).symm.trans hstep; exact le_rfl
  | stepIn => exact (instrStep_acc ((step_stepIn (s := t.setInputs [.stepIn]) ht rfl).symm.trans hstep)).ge
  | quitIn => cases (step_quitIn (s := t.setInputs [.quitIn]) ht rfl).symm.trans hstep; exact le_rfl
  | pacedIn => rw [(acc_of_paced_without_tick ht hu hstep hno).1]; exact Nat.le_add_right _ _

/-- No sequence that never falls from n on grows by 60 again and again and each time stays within a bound. -/
theorem no_bounded_growth (f : Nat → Nat) (n c : Nat) (hmono : ∀ m, n ≤ m → f m ≤ f (m + 1))
    (hrec : ∀ m, ∃ m', m ≤ m' ∧ (n ≤ m' → f (m' + 1) = f m' + 60 ∧ f (m' + 1) ≤ c)) : False := by
  have hle : ∀ m m', n ≤ m → m ≤ m' → f m ≤ f m' := fun m m' hm hmm' =>
    Nat.le_induction le_rfl (fun k hk ih => ih.trans (hmono k (hm.trans hk))) m' hmm'
  have hreach : ∀ k, ∃ m, n ≤ m ∧ k ≤ f m := by
    intro k
    induction k with
    | zero => exact ⟨n, le_rfl, Nat.zero_le _⟩
    | succ k ih =>
      obtain ⟨m, hm, hk⟩ := ih
      obtain ⟨m', hmm', hgrow⟩ := hrec m
      obtain ⟨hstep, -⟩ := hgrow (hm.trans hmm')
      have := hle m m' hm hmm'
      exact ⟨m' + 1, by omega, by omega⟩
  obtain ⟨m, hm, hbig⟩ := hreach (c + 1)
  obtain ⟨m', hmm', hgrow⟩ := hrec m
  obtain ⟨hstep, hbound⟩ := hgrow (hm.trans hmm')
  have := hle m m' hm hmm'
  omega

/-- Settles O53: with no tick from some event on, ACC would never fall and would grow with every paced step, past the
CLOCK_HZ at which the accounting makes a tick due. -/
theorem recurringPacedStepsAreFair : Obligations.RecurringPacedStepsAreFair := by
  intro sched s hrec hstay _ n
  by_contra hnone
  choose T hT hrun using hstay
  have hstep : ∀ m, step ((T m).setInputs [sched m]) = .next (T (m + 1)) := by
    intro m
    have h := hT (m + 1)
    rw [runUnder, hT m] at h
    exact h
  have hno : ∀ m, n ≤ m → stepTicks ((T m).setInputs [sched m]) = false := fun m hm =>
    Bool.eq_false_iff.mpr fun h => hnone ⟨m, T m, hm, hT m, h⟩
  refine no_bounded_growth (fun m => (T m).acc) n Config.clockHz
    (fun m hm => acc_le_of_no_tick (hrun m) (hrun (m + 1)) (hstep m) (hno m hm)) fun m => ?_
  obtain ⟨m', hm', he⟩ := hrec m
  refine ⟨m', hm', fun hn => ?_⟩
  have hstep' := hstep m'
  have hno' := hno m' hn
  rcases he with he | he <;> rw [he] at hstep' hno'
  · rw [stepTicks, tickedFrom_tickIn (s := (T m').setInputs [.tickIn]) (hrun m') rfl] at hno'
    cases hno'
  · exact acc_of_paced_without_tick (hrun m') (hrun (m' + 1)) hstep' hno'

end Sys2Proof.Machine
end

section
/-! PROOFS. A return after a call, the offset jump, the index addition, and the keypad polls (41_control_flow.md R142, R147,
43_index_memory.md R191, 45_keypad.md R220 to R223). -/

namespace Sys2Proof.Machine

/-- Settles O30: the entry on top of the stack that CALL leaves is the return address. -/
theorem callThenReturnRoundTrip : Obligations.CallThenReturnRoundTrip := by
  intro a s h
  refine ⟨_, exec_call_of_sp_lt a h, fun u hstack hsp => ?_⟩
  have hsp' : u.sp = s.sp + 1 := hsp
  have htop : u.top = s.pc + 2#16 := by
    rw [State.top, hstack, hsp', State.goto_stack, State.stackGet_push, if_pos (Nat.add_sub_cancel _ _)]
  exact ⟨_, exec_ret_of_sp_ne_zero (by omega), htop, congrArg (· - 1) hsp'⟩

/-- Settles O32: a byte and a 12-bit address have a sum below 2^16. -/
theorem offsetJumpAddsV0 : Obligations.OffsetJumpAddsV0 := by
  intro a s
  have hsum : (offsetTarget (s.reg 0#4) a).toNat = (s.reg 0#4).toNat + a.toNat := by
    rw [offsetTarget_eq, BitVec.toNat_ofNat]; omega
  exact ⟨_, rfl, hsum, by rw [State.goto_pc, hsum]; omega, s.regFrame_goto _⟩

/-- Settles O40: a plain write of I with the sum of two words. -/
theorem indexAddWrapsAtSixteenBits : Obligations.IndexAddWrapsAtSixteenBits := fun x s =>
  exec_setI_spec rfl (by rw [indexSum, BitVec.toNat_add, zextByte_toNat])

/-! ### The keypad polls -/

theorem skipByKey_of_lt {x : Reg} {s : State} (d : Bool) (h : (s.reg x).toNat < 16) :
    skipByKey x d s = .next (s.skipIf (s.keys[(s.reg x).toNat] == d)) := dif_pos h

theorem skipByKey_of_le {x : Reg} {s : State} (d : Bool) (h : 16 ≤ (s.reg x).toNat) :
    skipByKey x d s = .next (s.halt (.keyIndexFault s.pc (s.reg x))) := dif_neg (Nat.not_lt.mpr h)

/-- Settles O50: SKP skips on the key's level and SKNP on its negation. -/
theorem keySkips : Obligations.KeySkips := by
  refine fun x s => ⟨fun h => ⟨⟨_, skipByKey_of_lt true h, ?_, s.regFrame_skipIf _⟩,
    ⟨_, skipByKey_of_lt false h, ?_, s.regFrame_skipIf _⟩⟩, fun h => ⟨skipByKey_of_le true h, skipByKey_of_le false h⟩⟩
  · rw [State.skipIf_pc, beq_true]
  · rw [State.skipIf_pc, beq_false]
    cases s.keys[(s.reg x).toNat] <;> rfl

/-- Settles O51: both cases of a key wait, each shut out by the other's hypothesis. -/
theorem keyWait : Obligations.KeyWait := by
  refine fun x s => ⟨fun ⟨k, hk⟩ => ⟨_, execLdXK_eq x s, ?_⟩, fun hnone => ?_⟩
  · rcases keyWaited_cases x s with ⟨j, hj, he⟩ | ⟨hnone, -⟩
    · rw [he]
      refine ⟨⟨j, hj, ?_⟩, rfl, (s.regFrame_setV x _).drew.seq⟩
      rw [State.seq_reg, State.drew_reg, State.reg_setV_same, BitVec.toNat_ofNat]
      omega
    · rw [hnone k] at hk; cases hk
  · rcases keyWaited_cases x s with ⟨j, hj, -⟩ | ⟨-, he⟩
    · rw [hnone j] at hj; cases hj
    · exact (execLdXK_eq x s).trans (by rw [he])

end Sys2Proof.Machine
end

section
/-! PROOFS. Memory load and store through I (43_index_memory.md R193 to R196, 20_memory.md R73, R75). -/

namespace Sys2Proof.Machine

/-! ### What a store does, and what a load does -/

/-- The frame of an instruction that changes at most memory and PC. -/
def StoreFrame (s t : State) : Prop :=
  RegsSameBut [] s t ∧ t.i = s.i ∧ StackSame s t ∧ TimersSame s t ∧ ScreenSame s t ∧ EnvSame s t

/-- A store inside memory: what it writes, what it leaves, where PC goes, and its frame (R193). -/
theorem storeAtI_spec {bs : List Byte} {s : State} (h : s.i.toNat + bs.length ≤ 0x1000) :
    ∃ t, storeAtI bs s = .next t ∧ (∀ (j : Nat) (hj : j < bs.length), Mem.read t.mem (s.i.toNat + j) = bs[j]) ∧
      MemSameOutside s.i.toNat bs.length s t ∧ t.pc = s.pc + 2#16 ∧ StoreFrame s t := by
  rcases storeAtI_cases bs s with ⟨-, he⟩ | ⟨-, hlt, -⟩
  · refine ⟨_, he, fun j hj => ?_, fun b hb => ?_, rfl, fun _ _ => rfl, rfl, ⟨rfl, rfl⟩, ⟨rfl, rfl⟩, ⟨rfl, rfl⟩,
      ⟨rfl, rfl, rfl, rfl⟩⟩
    · rw [State.seq_mem, State.setMem_mem, Mem.read_writeBytes, dif_pos (by omega)]
      simp only [Nat.add_sub_cancel_left]
    · rw [State.seq_mem, State.setMem_mem, Mem.read_writeBytes, dif_neg (by omega)]
  · rw [memSize_eq] at hlt; omega

theorem storeAtI_outside {bs : List Byte} {s : State} (hbs : bs ≠ []) (h : 0x1000 < s.i.toNat + bs.length) :
    storeAtI bs s = .next (s.halt (.addressFault s.pc (max s.i.toNat 0x1000))) := by
  rcases storeAtI_cases bs s with ⟨hnil | hle, -⟩ | ⟨-, -, he⟩
  · exact absurd hnil hbs
  · rw [memSize_eq] at hle; omega
  · exact he

/-- LD [I], Vx inside memory (R195). -/
theorem exec_ldMemX_spec {x : Reg} {s : State} (h : s.i.toNat + x.toNat < 0x1000) :
    ∃ t, exec (.ldMemX x) s = .next t ∧
      (∀ j : Reg, j.toNat ≤ x.toNat → Mem.read t.mem (s.i.toNat + j.toNat) = s.reg j) ∧
      MemSameOutside s.i.toNat (x.toNat + 1) s t ∧ t.pc = s.pc + 2#16 ∧ StoreFrame s t := by
  obtain ⟨t, he, hread, hsame, hpc, hframe⟩ :=
    storeAtI_spec (bs := regsUpTo s.v x) (s := s) (by rw [regsUpTo_length]; omega)
  rw [regsUpTo_length] at hsame
  refine ⟨t, he, fun j hj => ?_, hsame, hpc, hframe⟩
  have hlt : j.toNat < (regsUpTo s.v x).length := by rw [regsUpTo_length]; omega
  exact (hread j.toNat hlt).trans (regsUpTo_getElem s.v x j hlt)

/-- LD Vx, [I] inside memory (R196). -/
theorem exec_ldXMem_spec {x : Reg} {s : State} (h : s.i.toNat + x.toNat < 0x1000) :
    ∃ t, exec (.ldXMem x) s = .next t ∧
      (∀ j : Reg, t.reg j = if j.toNat ≤ x.toNat then Mem.read s.mem (s.i.toNat + j.toNat) else s.reg j) ∧
      t.pc = s.pc + 2#16 ∧ t.i = s.i ∧ StackSame s t ∧ TimersSame s t ∧ ScreenSame s t ∧ EnvSame s t ∧ MemSame s t := by
  rcases execLdXMem_cases x s with ⟨-, he⟩ | ⟨hlt, -⟩
  · refine ⟨_, he, fun j => ?_, rfl, rfl, ⟨rfl, rfl⟩, ⟨rfl, rfl⟩, ⟨rfl, rfl⟩, ⟨rfl, rfl, rfl, rfl⟩, fun _ => rfl⟩
    rw [State.seq_reg, State.setRegs_reg, getReg_loadRegs]
    by_cases hj : j.toNat ≤ x.toNat
    · rw [dif_pos (by rw [Mem.readBytes_length]; omega), if_pos hj, Mem.readBytes_getElem, Nat.sub_zero]
    · rw [dif_neg (by rw [Mem.readBytes_length]; omega), if_neg hj]; rfl
  · rw [memSize_eq] at hlt; omega

theorem exec_ldXMem_outside {x : Reg} {s : State} (h : 0x1000 ≤ s.i.toNat + x.toNat) :
    exec (.ldXMem x) s = .next (s.halt (.addressFault s.pc (max s.i.toNat 0x1000))) := by
  rcases execLdXMem_cases x s with ⟨hle, -⟩ | ⟨-, he⟩
  · rw [memSize_eq] at hle; omega
  · exact he

/-! ### The obligations -/

/-- Settles O41: the three digits of a byte are below 256, so storing them loses nothing. -/
theorem bcdStoresThreeDigits : Obligations.BcdStoresThreeDigits := by
  intro x s
  refine ⟨fun h => ?_, fun h => storeAtI_outside (List.cons_ne_nil _ _) (Nat.lt_succ_of_le h)⟩
  obtain ⟨t, he, hread, hsame, hpc, hframe⟩ := storeAtI_spec (bs := bcdDigits (s.reg x)) (s := s) (Nat.succ_le_of_lt h)
  have hbyte (n : Nat) (hn : n ≤ 255) : (BitVec.ofNat 8 n).toNat = n := by rw [BitVec.toNat_ofNat]; omega
  refine ⟨t, he, ?_, ?_, ?_, hsame, hpc, hframe⟩
  · exact (congrArg BitVec.toNat (hread 0 (show 0 < 3 by decide))).trans (hbyte _ (by omega))
  · exact (congrArg BitVec.toNat (hread 1 (show 1 < 3 by decide))).trans (hbyte _ (by omega))
  · exact (congrArg BitVec.toNat (hread 2 (show 2 < 3 by decide))).trans (hbyte _ (by omega))

/-- Settles O42: the bytes stored are V0 to Vx, x + 1 of them. -/
theorem storeRegistersFromI : Obligations.StoreRegistersFromI := by
  refine fun x s => ⟨exec_ldMemX_spec, fun h => storeAtI_outside (List.ne_nil_of_length_pos ?_) ?_⟩ <;>
    rw [regsUpTo_length]
  · exact Nat.succ_pos _
  · omega

/-- Settles O43: a load inside memory, and one that leaves it. -/
theorem loadRegistersFromI : Obligations.LoadRegistersFromI := fun _ _ => ⟨exec_ldXMem_spec, exec_ldXMem_outside⟩

/-- Settles O44: a load of V0 to Vx reads the bytes that the store wrote. -/
theorem storeThenLoadRestoresRegisters : Obligations.StoreThenLoadRestoresRegisters := by
  intro x s h
  obtain ⟨t, ht, hread, -⟩ := exec_ldMemX_spec h
  refine ⟨t, ht, fun u hmem hi => ?_⟩
  obtain ⟨w, hw, hreg, -⟩ := exec_ldXMem_spec (x := x) (s := u) (by rw [hi]; exact h)
  refine ⟨w, hw, fun j hj => ?_⟩
  rw [hreg, if_pos hj, hmem, hi, hread j hj]

/-- Settles O45: the two bytes that the fetch reads are two of the registers stored. -/
theorem fetchSeesEarlierStores : Obligations.FetchSeesEarlierStores := by
  intro x j k s h hk hkj
  obtain ⟨t, ht, hread, -⟩ := exec_ldMemX_spec h
  refine ⟨t, ht, fun u hmem hpc => ?_⟩
  rcases fetch_cases u with ⟨-, he⟩ | ⟨hout, -⟩
  · rw [he, hmem, hpc, Nat.add_assoc, ← hkj, hread j (by omega), hread k hk]; rfl
  · rw [memSize_eq] at hout; omega

end Sys2Proof.Machine
end

section
/-! PROOFS. Drawing a sprite (44_display.md R211 to R215). -/

namespace Sys2Proof.Machine

/-! ### What the drawing loops do, in the terms of the statements -/

theorem eq_rowIndex_iff (r : Fin 32) (m : Nat) : r = rowIndex m ↔ r.val = m % 32 := Fin.ext_iff
theorem eq_colIndex_iff (c : Fin 64) (m : Nat) : c = colIndex m ↔ c.val = m % 64 := Fin.ext_iff

/-- A draw flips the pixels that the sprite lights, and no other (R211). -/
theorem pixel_drawn (x y : Reg) (n : Nibble) (s : State) (r : Fin 32) (c : Fin 64) :
    pixel (drawn x y n s).1 r c = true ↔ ¬ (pixel s.fb r c = true ↔ SpriteLights s x y n r c) := by
  have hlen : (Mem.readBytes s.mem s.i.toNat n.toNat).length ≤ 32 := by
    rw [Mem.readBytes_length]; omega
  rw [drawn, (drawRows_spec _ _ _ hlen _).1 r c]
  simp only [Mem.readBytes_getElem, Mem.readBytes_length, exists_prop, eq_rowIndex_iff, eq_colIndex_iff]
  rfl

/-- A draw collides when the sprite lights a pixel that was on (R214). -/
theorem drawn_collides (x y : Reg) (n : Nibble) (s : State) :
    (drawn x y n s).2 = true ↔ ∃ r c, SpriteLights s x y n r c ∧ pixel s.fb r c = true := by
  have hlen : (Mem.readBytes s.mem s.i.toNat n.toNat).length ≤ 32 := by
    rw [Mem.readBytes_length]; omega
  rw [drawn, (drawRows_spec _ _ _ hlen _).2]
  simp only [Mem.readBytes_getElem, Mem.readBytes_length, exists_prop, Bool.false_eq_true, false_or]
  constructor
  · rintro ⟨j, k, hj, hk, hbit, hon⟩
    exact ⟨_, _, ⟨j, k, hj, hk, hbit, rfl, rfl⟩, hon⟩
  · rintro ⟨r, c, ⟨j, k, hj, hk, hbit, hr, hc⟩, hon⟩
    obtain rfl := (eq_rowIndex_iff r _).mpr hr
    obtain rfl := (eq_colIndex_iff c _).mpr hc
    exact ⟨j, k, hj, hk, hbit, hon⟩

/-- What a sprite lights depends on its bytes, on I and on the two coordinates only. -/
theorem spriteLights_congr {s t : State} {x y : Reg} {n : Nibble} (hmem : MemSame s t) (hi : t.i = s.i)
    (hx : t.reg x = s.reg x) (hy : t.reg y = s.reg y) (r : Fin 32) (c : Fin 64) :
    SpriteLights t x y n r c ↔ SpriteLights s x y n r c := by
  unfold SpriteLights
  rw [hi, hx, hy]
  simp only [hmem _]

/-! ### The obligations -/

/-- Settles O48: a draw of some row is refused by the bounds check. -/
theorem drawOutsideMemoryHalts : Obligations.DrawOutsideMemoryHalts := by
  intro x y n s hn hout
  rcases execDrw_cases x y n s with ⟨hzero | hle, -⟩ | ⟨-, -, he⟩
  · exact absurd (BitVec.eq_of_toNat_eq hzero) hn
  · rw [memSize_eq] at hle; omega
  · exact he

theorem exec_drw_of_inside {x y : Reg} {n : Nibble} {s : State} (h : n = 0#4 ∨ s.i.toNat + n.toNat ≤ 0x1000) :
    exec (.drw x y n) s = .next ((s.setFrame (drawn x y n s).1).setV regF (flagByte (drawn x y n s).2)).seq := by
  rcases execDrw_cases x y n s with ⟨-, he⟩ | ⟨hpos, hlt, -⟩
  · exact he
  · rw [memSize_eq] at hlt
    rcases h with rfl | h
    · cases hpos
    · omega

/-- Settles O47: the pixels and the collision of the drawing loops, read off the written state. -/
theorem drawFlipsTheSpritePixels : Obligations.DrawFlipsTheSpritePixels := by
  intro x y n s h
  refine ⟨_, exec_drw_of_inside h, fun r c hl => ?_, fun r c hl => ?_, fun hon => ?_, fun hoff => ?_, rfl, rfl,
    fun j hj => ?_, rfl, ⟨rfl, rfl⟩, ⟨rfl, rfl⟩, ⟨rfl, rfl, rfl, rfl⟩, fun _ => rfl⟩
  · have hp := pixel_drawn x y n s r c
    simp only [hl, iff_true] at hp
    exact Bool.eq_iff_iff.mpr (hp.trans (by simp))
  · have hp := pixel_drawn x y n s r c
    simp only [hl, iff_false, not_not] at hp
    exact Bool.eq_iff_iff.mpr hp
  · exact (State.reg_setV_same _ regF _).trans (congrArg flagByte ((drawn_collides x y n s).mpr hon))
  · exact (State.reg_setV_same _ regF _).trans
      (congrArg flagByte (Bool.eq_false_iff.mpr (mt (drawn_collides x y n s).mp hoff)))
  · exact (State.reg_setV _ regF j _).trans (if_neg (List.ne_of_not_mem_cons hj))

/-- Settles O49: the first draw leaves everything that the second one reads but the framebuffer, so the sprite lights the same
pixels again, each of them now flipped. -/
theorem drawTwiceRestoresTheFrame : Obligations.DrawTwiceRestoresTheFrame := by
  intro x y n s hx hy h
  obtain ⟨t, ht, hflip, hkeep, -, -, -, -, hregs, hi, -, -, -, hmem⟩ := drawFlipsTheSpritePixels x y n s h
  obtain ⟨u, hu, hflip', hkeep', hset, hclear, -⟩ := drawFlipsTheSpritePixels x y n t (by rw [hi]; exact h)
  have hlights := spriteLights_congr (n := n) hmem hi (hregs x (by simpa using hx)) (hregs y (by simpa using hy))
  have hcollide : (∃ r c, SpriteLights t x y n r c ∧ pixel t.fb r c = true) ↔
      ∃ r c, SpriteLights s x y n r c ∧ pixel s.fb r c = false := by
    refine exists_congr fun r => exists_congr fun c => ?_
    rw [hlights]
    refine and_congr_right fun hl => ?_
    rw [hflip r c hl, Bool.not_eq_true']
  refine ⟨t, u, ht, hu, fun r c => ?_, fun hoff => hset (hcollide.mpr hoff), fun hon => hclear (mt hcollide.mp hon)⟩
  by_cases hl : SpriteLights s x y n r c
  · rw [hflip' r c ((hlights r c).mpr hl), hflip r c hl, Bool.not_not]
  · rw [hkeep' r c (mt (hlights r c).mp hl), hkeep r c hl]

end Sys2Proof.Machine
end
